-- ==== Sys2Proof/Word.lean ====
section
/-! DEFINITION. The word types of the CHIP-8 core (00_scope.md R5, R7, R8): every value is unsigned and wraps at
its own width. -/

namespace Sys2Proof

/-- A byte: a general register, a timer, a memory cell, an immediate NN (R5). -/
abbrev Byte := BitVec 8

/-- A 16-bit value: the opcode word, PC, I, a return address (R5). -/
abbrev Word := BitVec 16

/-- The 12-bit immediate address NNN (30_encoding.md R81). -/
abbrev Addr12 := BitVec 12

/-- The number of a general register, V0 to VF (10_state.md R21). -/
abbrev Reg := Fin 16

/-- Register 15, which doubles as the flag output (10_state.md R22). -/
abbrev VF : Reg := 15

end Sys2Proof
end

