-- ==== Sys2Proof/Syntax.lean ====
section
/-! DEFINITION. The instruction set as syntax: one constructor for each of the 34 rows of spec/opcode_table.json,
with the operands of 30_encoding.md R83. Don't-care bits (R89) are no part of an instruction. -/

namespace Sys2Proof

/-- The 34 instructions (00_scope.md R15, 30_encoding.md R95). `x` and `y` name registers, `nn` is a byte, `nnn` a
12-bit address, `n` a sprite height of 0 to 15 rows. -/
inductive Instr where
  /-- 00E0, clear the screen (R181). -/
  | cls
  /-- 00EE, return from subroutine (R123). -/
  | ret
  /-- 1NNN, jump (R121). -/
  | jp (nnn : Addr12)
  /-- 2NNN, call subroutine (R122). -/
  | call (nnn : Addr12)
  /-- 3XNN, skip if Vx = NN (R124). -/
  | seImm (x : Reg) (nn : Byte)
  /-- 4XNN, skip if Vx ≠ NN (R125). -/
  | sneImm (x : Reg) (nn : Byte)
  /-- 5XY0, skip if Vx = Vy (R126). -/
  | seReg (x y : Reg)
  /-- 6XNN, load immediate (R141). -/
  | ldImm (x : Reg) (nn : Byte)
  /-- 7XNN, add immediate, no flag (R142). -/
  | addImm (x : Reg) (nn : Byte)
  /-- 8XY0, copy register (R143). -/
  | ldReg (x y : Reg)
  /-- 8XY1 (R144). -/
  | or (x y : Reg)
  /-- 8XY2 (R145). -/
  | and (x y : Reg)
  /-- 8XY3 (R146). -/
  | xor (x y : Reg)
  /-- 8XY4, add with carry out (R147). -/
  | addReg (x y : Reg)
  /-- 8XY5, Vx − Vy (R148). -/
  | sub (x y : Reg)
  /-- 8XY6, shift right by one; `y` is read only when SHIFT_SOURCE = VY (R151). -/
  | shr (x y : Reg)
  /-- 8XY7, Vy − Vx (R149). -/
  | subn (x y : Reg)
  /-- 8XYE, shift left by one; `y` is read only when SHIFT_SOURCE = VY (R152). -/
  | shl (x y : Reg)
  /-- 9XY0, skip if Vx ≠ Vy (R127). -/
  | sneReg (x y : Reg)
  /-- ANNN, set I (R170). -/
  | ldI (nnn : Addr12)
  /-- BNNN, jump to NNN + V0 (R171). -/
  | jpV0 (nnn : Addr12)
  /-- CXNN, random byte masked by NN (R173). -/
  | rnd (x : Reg) (nn : Byte)
  /-- DXYN, draw a sprite of `n` rows (R180). -/
  | drw (x y : Reg) (n : Fin 16)
  /-- EX9E, skip if key Vx is pressed (R190). -/
  | skp (x : Reg)
  /-- EXA1, skip if key Vx is not pressed (R191). -/
  | sknp (x : Reg)
  /-- FX07, read the delay timer (R193). -/
  | ldVxDt (x : Reg)
  /-- FX0A, wait for a key press (R192). -/
  | ldVxK (x : Reg)
  /-- FX15, set the delay timer (R194). -/
  | ldDt (x : Reg)
  /-- FX18, set the sound timer (R195). -/
  | ldSt (x : Reg)
  /-- FX1E, add Vx to I (R172). -/
  | addI (x : Reg)
  /-- FX29, point I at the glyph for Vx (R203). -/
  | ldF (x : Reg)
  /-- FX33, store the BCD digits of Vx (R200). -/
  | ldB (x : Reg)
  /-- FX55, store V0 to Vx (R201). -/
  | ldMemVx (x : Reg)
  /-- FX65, load V0 to Vx (R202). -/
  | ldVxMem (x : Reg)
deriving DecidableEq, Repr

end Sys2Proof
end

