-- ==== Sys2Proof/WellFormed.lean ====
section
/-! DEFINITION. What a well-formed term is. The operand types of Instr are exactly the widths of the encoding's
fields (30_encoding.md R81), so no ill-formed instruction can be written down and the check of an instruction never
refuses. The term that can be ill-formed is the program image of LOAD (70_reset_and_hazards.md R255). -/

namespace Sys2Proof

/-- Every operand fits its field: 4-bit register numbers and heights, 8-bit NN, 12-bit NNN (R81). The types say so
already; the check states it constructor by constructor. -/
def Instr.wellFormed : Instr → Bool
  | .cls => true
  | .ret => true
  | .jp nnn => decide (nnn.toNat < 4096)
  | .call nnn => decide (nnn.toNat < 4096)
  | .seImm x nn => decide (x.val < 16 ∧ nn.toNat < 256)
  | .sneImm x nn => decide (x.val < 16 ∧ nn.toNat < 256)
  | .seReg x y => decide (x.val < 16 ∧ y.val < 16)
  | .ldImm x nn => decide (x.val < 16 ∧ nn.toNat < 256)
  | .addImm x nn => decide (x.val < 16 ∧ nn.toNat < 256)
  | .ldReg x y => decide (x.val < 16 ∧ y.val < 16)
  | .or x y => decide (x.val < 16 ∧ y.val < 16)
  | .and x y => decide (x.val < 16 ∧ y.val < 16)
  | .xor x y => decide (x.val < 16 ∧ y.val < 16)
  | .addReg x y => decide (x.val < 16 ∧ y.val < 16)
  | .sub x y => decide (x.val < 16 ∧ y.val < 16)
  | .shr x y => decide (x.val < 16 ∧ y.val < 16)
  | .subn x y => decide (x.val < 16 ∧ y.val < 16)
  | .shl x y => decide (x.val < 16 ∧ y.val < 16)
  | .sneReg x y => decide (x.val < 16 ∧ y.val < 16)
  | .ldI nnn => decide (nnn.toNat < 4096)
  | .jpV0 nnn => decide (nnn.toNat < 4096)
  | .rnd x nn => decide (x.val < 16 ∧ nn.toNat < 256)
  | .drw x y n => decide (x.val < 16 ∧ y.val < 16 ∧ n.val < 16)
  | .skp x => decide (x.val < 16)
  | .sknp x => decide (x.val < 16)
  | .ldVxDt x => decide (x.val < 16)
  | .ldVxK x => decide (x.val < 16)
  | .ldDt x => decide (x.val < 16)
  | .ldSt x => decide (x.val < 16)
  | .addI x => decide (x.val < 16)
  | .ldF x => decide (x.val < 16)
  | .ldB x => decide (x.val < 16)
  | .ldMemVx x => decide (x.val < 16)
  | .ldVxMem x => decide (x.val < 16)

/-- ROM_MAX: a program image holds at most 4096 − 512 = 3584 bytes (00_scope.md R5, 70_reset_and_hazards.md R255). -/
def imageWellFormed (image : List Byte) : Bool := decide (image.length ≤ 3584)

end Sys2Proof
end

