-- ==== Sys2Proof/Decode.lean ====
section
/-! DEFINITION. The two-level decoder (30_encoding.md R84 to R91), total on any word and any bytes; after it the
encoder (R95), the opcode table's masks and matches, and decodeTableWord for the host. -/

namespace Sys2Proof

/-- What Decode(op) returns (R91): a handler with its operands, or UNMAPPED. -/
inductive Decoded where
  | instr (i : Instr)
  | unmapped
deriving DecidableEq, Repr

/-- Why a byte sequence holds no instruction. -/
inductive DecodeError where
  /-- The first two bytes form a word with no handler (R93). -/
  | unmapped (op : Word)
  /-- Fewer than two bytes: every instruction is exactly 16 bits long (R80). -/
  | truncated
deriving DecidableEq, Repr

/-! ### The fields of the one format (R81) -/

/-- P = op[15:12], the primary key. -/
def fieldP (op : Word) : BitVec 4 := op.extractLsb' 12 4
/-- X = op[11:8], a register number. -/
def fieldX (op : Word) : Reg := (op.extractLsb' 8 4).toFin
/-- Y = op[7:4], a register number. -/
def fieldY (op : Word) : Reg := (op.extractLsb' 4 4).toFin
/-- N = op[3:0], the sprite height. -/
def fieldN (op : Word) : Fin 16 := (op.extractLsb' 0 4).toFin
/-- The low nibble op[3:0] as the secondary key of families 0, 8 and E. -/
def fieldLow (op : Word) : BitVec 4 := op.extractLsb' 0 4
/-- NN = op[7:0], the immediate byte and the secondary key of family F. -/
def fieldNN (op : Word) : Byte := op.extractLsb' 0 8
/-- NNN = op[11:0], the 12-bit address. -/
def fieldNNN (op : Word) : Addr12 := op.extractLsb' 0 12

/-! ### The tables -/

/-- Secondary table 0, keyed by the low nibble; op[11:4] is not examined (R85). -/
def decode0 (op : Word) : Decoded :=
  match fieldLow op with
  | 0x0#4 => .instr .cls
  | 0xE#4 => .instr .ret
  | _ => .unmapped

/-- Secondary table 8, keyed by the low nibble (R86). -/
def decode8 (op : Word) : Decoded :=
  match fieldLow op with
  | 0x0#4 => .instr (.ldReg (fieldX op) (fieldY op))
  | 0x1#4 => .instr (.or (fieldX op) (fieldY op))
  | 0x2#4 => .instr (.and (fieldX op) (fieldY op))
  | 0x3#4 => .instr (.xor (fieldX op) (fieldY op))
  | 0x4#4 => .instr (.addReg (fieldX op) (fieldY op))
  | 0x5#4 => .instr (.sub (fieldX op) (fieldY op))
  | 0x6#4 => .instr (.shr (fieldX op) (fieldY op))
  | 0x7#4 => .instr (.subn (fieldX op) (fieldY op))
  | 0xE#4 => .instr (.shl (fieldX op) (fieldY op))
  | _ => .unmapped

/-- Secondary table E, keyed by the low nibble; op[7:4] is not examined (R87). -/
def decodeE (op : Word) : Decoded :=
  match fieldLow op with
  | 0xE#4 => .instr (.skp (fieldX op))
  | 0x1#4 => .instr (.sknp (fieldX op))
  | _ => .unmapped

/-- Secondary table F, keyed by the low byte (R88). -/
def decodeF (op : Word) : Decoded :=
  match fieldNN op with
  | 0x07#8 => .instr (.ldVxDt (fieldX op))
  | 0x0A#8 => .instr (.ldVxK (fieldX op))
  | 0x15#8 => .instr (.ldDt (fieldX op))
  | 0x18#8 => .instr (.ldSt (fieldX op))
  | 0x1E#8 => .instr (.addI (fieldX op))
  | 0x29#8 => .instr (.ldF (fieldX op))
  | 0x33#8 => .instr (.ldB (fieldX op))
  | 0x55#8 => .instr (.ldMemVx (fieldX op))
  | 0x65#8 => .instr (.ldVxMem (fieldX op))
  | _ => .unmapped

/-- Decode(op): the primary table on op[15:12] (R84), total on all 65536 words and a function of op only (R91).
The primary entries 0x5 and 0x9 have no secondary lookup, so 5XYN and 9XYN run them for every N (R89). -/
def decodeWord (op : Word) : Decoded :=
  match fieldP op with
  | 0x0#4 => decode0 op
  | 0x1#4 => .instr (.jp (fieldNNN op))
  | 0x2#4 => .instr (.call (fieldNNN op))
  | 0x3#4 => .instr (.seImm (fieldX op) (fieldNN op))
  | 0x4#4 => .instr (.sneImm (fieldX op) (fieldNN op))
  | 0x5#4 => .instr (.seReg (fieldX op) (fieldY op))
  | 0x6#4 => .instr (.ldImm (fieldX op) (fieldNN op))
  | 0x7#4 => .instr (.addImm (fieldX op) (fieldNN op))
  | 0x8#4 => decode8 op
  | 0x9#4 => .instr (.sneReg (fieldX op) (fieldY op))
  | 0xA#4 => .instr (.ldI (fieldNNN op))
  | 0xB#4 => .instr (.jpV0 (fieldNNN op))
  | 0xC#4 => .instr (.rnd (fieldX op) (fieldNN op))
  | 0xD#4 => .instr (.drw (fieldX op) (fieldY op) (fieldN op))
  | 0xE#4 => decodeE op
  | _ => decodeF op

/-- Two bytes as one big-endian word, the byte at the lower address in op[15:8] (20_memory.md R64). -/
def wordOfBytes (hi lo : Byte) : Word := hi ++ lo

/-- The decoder on any bytes: the instruction and the bytes after it, or the reason by name. -/
def decodeBytes : List Byte → Except DecodeError (Instr × List Byte)
  | hi :: lo :: rest =>
    match decodeWord (wordOfBytes hi lo) with
    | .instr i => .ok (i, rest)
    | .unmapped => .error (.unmapped (wordOfBytes hi lo))
  | _ => .error .truncated

/-! ### The encoder -/

/-- PNNN. -/
def packNNN (p : BitVec 4) (nnn : Addr12) : Word := p ++ nnn
/-- PXNN. -/
def packXNN (p : BitVec 4) (x : Reg) (nn : Byte) : Word := p ++ (BitVec.ofFin x : BitVec 4) ++ nn
/-- PXYN. -/
def packXYN (p : BitVec 4) (x y : Reg) (n : BitVec 4) : Word :=
  p ++ (BitVec.ofFin x : BitVec 4) ++ (BitVec.ofFin y : BitVec 4) ++ n

/-- The word of an instruction, as the table of R95 writes it. Where the decoder does not examine bits (R89), the
table's own word is taken: 00E0, 00EE, 5XY0, 9XY0, EX9E, EXA1 (DESIGN CHOICE, safe, log entry 9). -/
def encode : Instr → Word
  | .cls => 0x00E0#16
  | .ret => 0x00EE#16
  | .jp nnn => packNNN 0x1#4 nnn
  | .call nnn => packNNN 0x2#4 nnn
  | .seImm x nn => packXNN 0x3#4 x nn
  | .sneImm x nn => packXNN 0x4#4 x nn
  | .seReg x y => packXYN 0x5#4 x y 0x0#4
  | .ldImm x nn => packXNN 0x6#4 x nn
  | .addImm x nn => packXNN 0x7#4 x nn
  | .ldReg x y => packXYN 0x8#4 x y 0x0#4
  | .or x y => packXYN 0x8#4 x y 0x1#4
  | .and x y => packXYN 0x8#4 x y 0x2#4
  | .xor x y => packXYN 0x8#4 x y 0x3#4
  | .addReg x y => packXYN 0x8#4 x y 0x4#4
  | .sub x y => packXYN 0x8#4 x y 0x5#4
  | .shr x y => packXYN 0x8#4 x y 0x6#4
  | .subn x y => packXYN 0x8#4 x y 0x7#4
  | .shl x y => packXYN 0x8#4 x y 0xE#4
  | .sneReg x y => packXYN 0x9#4 x y 0x0#4
  | .ldI nnn => packNNN 0xA#4 nnn
  | .jpV0 nnn => packNNN 0xB#4 nnn
  | .rnd x nn => packXNN 0xC#4 x nn
  | .drw x y n => packXYN 0xD#4 x y (BitVec.ofFin n)
  | .skp x => packXNN 0xE#4 x 0x9E#8
  | .sknp x => packXNN 0xE#4 x 0xA1#8
  | .ldVxDt x => packXNN 0xF#4 x 0x07#8
  | .ldVxK x => packXNN 0xF#4 x 0x0A#8
  | .ldDt x => packXNN 0xF#4 x 0x15#8
  | .ldSt x => packXNN 0xF#4 x 0x18#8
  | .addI x => packXNN 0xF#4 x 0x1E#8
  | .ldF x => packXNN 0xF#4 x 0x29#8
  | .ldB x => packXNN 0xF#4 x 0x33#8
  | .ldMemVx x => packXNN 0xF#4 x 0x55#8
  | .ldVxMem x => packXNN 0xF#4 x 0x65#8

/-- op[15:8], the byte that stands at the lower address (R64). -/
def highByte (w : Word) : Byte := w.extractLsb' 8 8
/-- op[7:0], the byte that stands at the higher address (R64). -/
def lowByte (w : Word) : Byte := w.extractLsb' 0 8

/-- An instruction as it stands in memory, two bytes, big-endian (R64, R80). -/
def encodeBytes (i : Instr) : List Byte := [highByte (encode i), lowByte (encode i)]

/-! ### The opcode table -/

/-- The mask and the match of the instruction's row of spec/opcode_table.json (R91). -/
def Instr.maskMatch : Instr → Word × Word
  | .cls => (0xF00F, 0x0000)
  | .ret => (0xF00F, 0x000E)
  | .jp _ => (0xF000, 0x1000)
  | .call _ => (0xF000, 0x2000)
  | .seImm _ _ => (0xF000, 0x3000)
  | .sneImm _ _ => (0xF000, 0x4000)
  | .seReg _ _ => (0xF000, 0x5000)
  | .ldImm _ _ => (0xF000, 0x6000)
  | .addImm _ _ => (0xF000, 0x7000)
  | .ldReg _ _ => (0xF00F, 0x8000)
  | .or _ _ => (0xF00F, 0x8001)
  | .and _ _ => (0xF00F, 0x8002)
  | .xor _ _ => (0xF00F, 0x8003)
  | .addReg _ _ => (0xF00F, 0x8004)
  | .sub _ _ => (0xF00F, 0x8005)
  | .shr _ _ => (0xF00F, 0x8006)
  | .subn _ _ => (0xF00F, 0x8007)
  | .shl _ _ => (0xF00F, 0x800E)
  | .sneReg _ _ => (0xF000, 0x9000)
  | .ldI _ => (0xF000, 0xA000)
  | .jpV0 _ => (0xF000, 0xB000)
  | .rnd _ _ => (0xF000, 0xC000)
  | .drw _ _ _ => (0xF000, 0xD000)
  | .skp _ => (0xF00F, 0xE00E)
  | .sknp _ => (0xF00F, 0xE001)
  | .ldVxDt _ => (0xF0FF, 0xF007)
  | .ldVxK _ => (0xF0FF, 0xF00A)
  | .ldDt _ => (0xF0FF, 0xF015)
  | .ldSt _ => (0xF0FF, 0xF018)
  | .addI _ => (0xF0FF, 0xF01E)
  | .ldF _ => (0xF0FF, 0xF029)
  | .ldB _ => (0xF0FF, 0xF033)
  | .ldMemVx _ => (0xF0FF, 0xF055)
  | .ldVxMem _ => (0xF0FF, 0xF065)

/-- The 34 (mask, match) rows of spec/opcode_table.json, in the table's order (R91). -/
def opcodeRows : List (Word × Word) :=
  [(0xF00F, 0x0000), (0xF00F, 0x000E), (0xF000, 0x1000), (0xF000, 0x2000), (0xF000, 0x3000), (0xF000, 0x4000)] ++
  [(0xF000, 0x5000), (0xF000, 0x6000), (0xF000, 0x7000), (0xF00F, 0x8000), (0xF00F, 0x8001), (0xF00F, 0x8002)] ++
  [(0xF00F, 0x8003), (0xF00F, 0x8004), (0xF00F, 0x8005), (0xF00F, 0x8006), (0xF00F, 0x8007), (0xF00F, 0x800E)] ++
  [(0xF000, 0x9000), (0xF000, 0xA000), (0xF000, 0xB000), (0xF000, 0xC000), (0xF000, 0xD000), (0xF00F, 0xE00E)] ++
  [(0xF00F, 0xE001), (0xF0FF, 0xF007), (0xF0FF, 0xF00A), (0xF0FF, 0xF015), (0xF0FF, 0xF018), (0xF0FF, 0xF01E)] ++
  [(0xF0FF, 0xF029), (0xF0FF, 0xF033), (0xF0FF, 0xF055), (0xF0FF, 0xF065)]

/-! ### Assembly syntax (R95) -/

/-- V0 to VF. -/
def regName (x : Reg) : String := "V" ++ String.ofList [(Nat.digitChar x.val).toUpper]

/-- A hex literal. -/
def hexLiteral (n : Nat) : String := "0x" ++ String.ofList ((Nat.toDigits 16 n).map Char.toUpper)

/-- The instruction in the syntax of R95; SHR and SHL are written with their Vy. -/
def Instr.assembly : Instr → String
  | .cls => "CLS"
  | .ret => "RET"
  | .jp nnn => "JP " ++ hexLiteral nnn.toNat
  | .call nnn => "CALL " ++ hexLiteral nnn.toNat
  | .seImm x nn => "SE " ++ regName x ++ ", " ++ hexLiteral nn.toNat
  | .sneImm x nn => "SNE " ++ regName x ++ ", " ++ hexLiteral nn.toNat
  | .seReg x y => "SE " ++ regName x ++ ", " ++ regName y
  | .ldImm x nn => "LD " ++ regName x ++ ", " ++ hexLiteral nn.toNat
  | .addImm x nn => "ADD " ++ regName x ++ ", " ++ hexLiteral nn.toNat
  | .ldReg x y => "LD " ++ regName x ++ ", " ++ regName y
  | .or x y => "OR " ++ regName x ++ ", " ++ regName y
  | .and x y => "AND " ++ regName x ++ ", " ++ regName y
  | .xor x y => "XOR " ++ regName x ++ ", " ++ regName y
  | .addReg x y => "ADD " ++ regName x ++ ", " ++ regName y
  | .sub x y => "SUB " ++ regName x ++ ", " ++ regName y
  | .shr x y => "SHR " ++ regName x ++ ", " ++ regName y
  | .subn x y => "SUBN " ++ regName x ++ ", " ++ regName y
  | .shl x y => "SHL " ++ regName x ++ ", " ++ regName y
  | .sneReg x y => "SNE " ++ regName x ++ ", " ++ regName y
  | .ldI nnn => "LD I, " ++ hexLiteral nnn.toNat
  | .jpV0 nnn => "JP V0, " ++ hexLiteral nnn.toNat
  | .rnd x nn => "RND " ++ regName x ++ ", " ++ hexLiteral nn.toNat
  | .drw x y n => "DRW " ++ regName x ++ ", " ++ regName y ++ ", " ++ hexLiteral n.val
  | .skp x => "SKP " ++ regName x
  | .sknp x => "SKNP " ++ regName x
  | .ldVxDt x => "LD " ++ regName x ++ ", DT"
  | .ldVxK x => "LD " ++ regName x ++ ", K"
  | .ldDt x => "LD DT, " ++ regName x
  | .ldSt x => "LD ST, " ++ regName x
  | .addI x => "ADD I, " ++ regName x
  | .ldF x => "LD F, " ++ regName x
  | .ldB x => "LD B, " ++ regName x
  | .ldMemVx x => "LD [I], " ++ regName x
  | .ldVxMem x => "LD " ++ regName x ++ ", [I]"

/-! ### For the host -/

/-- The bytes of a table word of `nbits` bits as the hardware stores them: the 16-bit word big-endian, every bit
above `nbits` zero (R64, R80). -/
def tableWordBytes (nbits w : Nat) : List Byte :=
  [highByte (BitVec.ofNat 16 (w % 2 ^ nbits)), lowByte (BitVec.ofNat 16 (w % 2 ^ nbits))]

/-- The instruction this decoder reads from a word of the opcode table. -/
def decodeTableWord (nbits w : Nat) : Option Instr :=
  match decodeBytes (tableWordBytes nbits w) with
  | .ok (i, _) => some i
  | .error _ => none

end Sys2Proof
end

