-- ==== Sys2Proof/Config.lean ====
section
/-! DEFINITION. What is fixed for the life of an instance (00_scope.md R5, the four configuration parameters) and
the one free value (the random byte, 43_index_random.md R173). The spec's defaults of the parameters are in
Machine/Parameters.lean. -/

namespace Sys2Proof

/-- SHIFT_SOURCE: which register a shift takes its operand from (42_moves_alu.md R150). -/
inductive ShiftSource where
  | vx
  | vy
deriving DecidableEq, Repr

/-- VF_WRITE_ORDER: which of the two writes VF keeps when it is result and flag at once (42_moves_alu.md R140). -/
inductive VfWriteOrder where
  | flagLast
  | resultLast
deriving DecidableEq, Repr

/-- PC_ALIGN: whether a fetch at an odd address is allowed or faults (20_memory.md R68). -/
inductive PcAlign where
  | allow
  | fault
deriving DecidableEq, Repr

/-- GLYPH_ROM: the 80 bytes of the glyph table, 16 glyphs of 5 bytes (10_state.md R31). -/
abbrev GlyphRom := Vector Byte 80

/-- The configuration parameters of R5. They are carried in State so that every claim over all states holds for
every setting; no instruction and no Cycle changes them (R20). DESIGN CHOICE, safe, log entry 1. -/
structure Config where
  shiftSource  : ShiftSource
  vfWriteOrder : VfWriteOrder
  pcAlign      : PcAlign
  glyphRom     : GlyphRom
deriving DecidableEq, Repr

/-- The byte the host supplies on the port RND in a Cycle for which the model is told none: a FREE VALUE, any byte
in each Cycle and no law between Cycles (43_index_random.md R173, 92_eei_decisions.md D18). Log entry 2, safe. -/
opaque Config.freeRnd : Nat → Byte

end Sys2Proof
end

