-- ==== Sys2Proof/Machine/Parameters.lean ====
section
/-! DEFINITION. The spec's defaults of the configuration parameters (00_scope.md R5) and the default glyph table
(10_state.md R31). -/

namespace Sys2Proof

/-- The default GLYPH_ROM: the glyphs of the digits 0 to F, five bytes each (10_state.md R31). -/
def standardFont : GlyphRom :=
  #v[
     0xF0, 0x90, 0x90, 0x90, 0xF0,
     0x20, 0x60, 0x20, 0x20, 0x70,
     0xF0, 0x10, 0xF0, 0x80, 0xF0,
     0xF0, 0x10, 0xF0, 0x10, 0xF0,
     0x90, 0x90, 0xF0, 0x10, 0x10,
     0xF0, 0x80, 0xF0, 0x10, 0xF0,
     0xF0, 0x80, 0xF0, 0x90, 0xF0,
     0xF0, 0x10, 0x20, 0x40, 0x40,
     0xF0, 0x90, 0xF0, 0x90, 0xF0,
     0xF0, 0x90, 0xF0, 0x10, 0xF0,
     0xF0, 0x90, 0xF0, 0x90, 0x90,
     0xE0, 0x90, 0xE0, 0x90, 0xE0,
     0xF0, 0x80, 0x80, 0x80, 0xF0,
     0xE0, 0x90, 0x90, 0x90, 0xE0,
     0xF0, 0x80, 0xF0, 0x80, 0xF0,
     0xF0, 0x80, 0xF0, 0x80, 0x80]

/-- The parameters at the defaults of R5: SHIFT_SOURCE = VX, VF_WRITE_ORDER = FLAG_LAST, PC_ALIGN = ALLOW, GLYPH_ROM
the table of R31. -/
def Config.default : Config :=
  { shiftSource := .vx, vfWriteOrder := .flagLast, pcAlign := .allow, glyphRom := standardFont }

end Sys2Proof
end

