-- ==== Sys2Proof/Machine/State.lean ====
section
/-! DEFINITION. The state of the block, all that 10_state.md and 60_exceptions.md give it, as plain data; the fault
causes; the refusals; the state after reset (70_reset_and_hazards.md R250). -/

namespace Sys2Proof.Machine

/-- The fault causes of 60_exceptions.md R220. A fault is TAKEN: the shared operation faultEntry turns it into a next
state with HALTED = 1 and the fault record written (R221), so no step of this model answers Host.Outcome.fault
(log entry 6, safe). -/
inductive Fault where
  /-- Code 1, raised by the fetch when pc + 1 > 4095 (R101). -/
  | fetchBounds
  /-- Code 2, raised by the fetch at an odd pc when PC_ALIGN = FAULT (R101). -/
  | fetchMisaligned
  /-- Code 3, raised by CALL when SP = 16 (R122). -/
  | stackOverflow
  /-- Code 4, raised by RET when SP = 0 (R123). -/
  | stackUnderflow
  /-- Code 5, raised by DRW, LD B, LD [I] and LD Vx,[I] when an accessed address is above 4095 (R66). -/
  | memBounds
  /-- Code 6, raised by SKP and SKNP when Vx > 15 (R190, R191). -/
  | keyIndex
deriving DecidableEq, Repr

/-- Why a move is refused. -/
inductive Refusal where
  /-- An instruction whose meaning is not written yet; no arm of exec answers it. Safe. -/
  | notModelled (mnemonic : String)
  /-- Raised by the host move LOAD for an image of more than 3584 bytes, with no state change (70_reset_and_hazards.md
  R255). Safe. -/
  | imageTooLong
  /-- Raised by the host move LOAD after the first STEP or after an earlier LOAD since RESET (R255). Safe. -/
  | loadClosed
deriving DecidableEq, Repr

/-- The state. The first group is the architectural state of 10_state.md R20, then the status registers (R32) with
UNK_STROBE (R36), the opcode latch (R34), the inputs (R35) and what is fixed for the instance (R5). -/
structure State where
  /-- V0 to VF (R21, R22). -/
  v : Vector Byte 16
  /-- The index register (R25). -/
  i : Word
  /-- The program counter (R24). -/
  pc : Word
  /-- The return stack (R26). -/
  stack : Vector Word 16
  /-- The number of stack entries in use, 0 to 16 (R26, R33). -/
  sp : Fin 17
  /-- The delay timer (R28). -/
  dt : Byte
  /-- The sound timer (R28). -/
  st : Byte
  /-- Memory: the bytes that differ from the reset contents, addresses rising (R29, R60). -/
  mem : List Host.Cell
  /-- The framebuffer: bit x of row y is FB[x][y] (R30, R36). -/
  fb : Vector (BitVec 64) 32
  /-- HALTED (R32). -/
  halted : Bool
  /-- FAULT_CAUSE (R32, R220). -/
  faultCause : BitVec 4
  /-- FAULT_PC (R32). -/
  faultPc : Word
  /-- FAULT_OPCODE (R32). -/
  faultOpcode : Word
  /-- FAULT_INFO (R32). -/
  faultInfo : BitVec 17
  /-- UNKCNT (R32, R105). -/
  unkCnt : BitVec 32
  /-- UNK_STROBE (R36, R105). -/
  unkStrobe : Bool
  /-- The opcode latch: the fetched word during Execute, 0 between Cycles (R34; the 0 is a DESIGN CHOICE, log
  entry 4). -/
  op : Word
  /-- The input port KEY: bit k is 1 while key k is pressed (R27, R35; held between host writes, log entry 3). -/
  key : BitVec 16
  /-- The bytes the host lines up on the port RND for the coming Cycles, the next first (R35, log entry 2). -/
  rndIn : List Byte
  /-- The number of Cycles counted for the free value of RND (R173, log entry 2). -/
  rndCount : Nat
  /-- Whether the host may still LOAD: no STEP and no LOAD since RESET (R255, log entry 5). -/
  loadOpen : Bool
  /-- The configuration parameters, which nothing changes (R5, R20, log entry 1). -/
  cfg : Config
deriving DecidableEq, Repr

/-- The state right after RESET under given parameters (70_reset_and_hazards.md R250). The fields the spec gives no
reset value (op, rndIn, rndCount, loadOpen) are DESIGN CHOICE, log entries 2, 4 and 5. -/
def State.resetWith (cfg : Config) : State :=
  { v := Vector.replicate 16 0, i := 0, pc := 0x200, stack := Vector.replicate 16 0, sp := 0, dt := 0, st := 0,
    mem := [], fb := Vector.replicate 32 0, halted := false, faultCause := 0, faultPc := 0, faultOpcode := 0,
    faultInfo := 0, unkCnt := 0, unkStrobe := false, op := 0, key := 0, rndIn := [], rndCount := 0,
    loadOpen := true, cfg := cfg }

/-- The machine right after reset, with the parameters at the spec's defaults (R250, R5). -/
def State.reset : State := State.resetWith Config.default

end Sys2Proof.Machine
end

