-- ==== Sys2Proof/Machine/Ops.lean ====
section
/-! DEFINITION. The named operations over memory, registers, the framebuffer and the ports; fetching; taking a
fault; the parts of the Cycle around Execute (40_cycle.md R100 to R109). -/

namespace Sys2Proof.Machine

/-! ### Memory as data (20_memory.md R60, R70) -/

/-- What an address that is not listed reads as: the reset contents, GLYPH_ROM at 0x050 to 0x09F and 0 elsewhere
(10_state.md R29, R31; 20_memory.md R63). -/
def Memory.background (rom : GlyphRom) (a : Nat) : Byte :=
  if h : 0x50 ≤ a ∧ a < 0xA0 then rom[a - 0x50] else 0

/-- The listed byte of an address, if it has one. -/
def Memory.find : List Host.Cell → Nat → Option Byte
  | [], _ => none
  | (k, b) :: m, a => if a = k then some b else Memory.find m a

/-- The byte at an address. -/
def Memory.get (rom : GlyphRom) (m : List Host.Cell) (a : Nat) : Byte :=
  (Memory.find m a).getD (Memory.background rom a)

/-- List a byte, keeping the addresses rising. -/
def Memory.put : List Host.Cell → Nat → Byte → List Host.Cell
  | [], a, b => [(a, b)]
  | (k, c) :: m, a, b =>
    if a < k then (a, b) :: (k, c) :: m
    else if a = k then (a, b) :: m
    else (k, c) :: Memory.put m a b

/-- Unlist an address. -/
def Memory.drop : List Host.Cell → Nat → List Host.Cell
  | [], _ => []
  | (k, c) :: m, a => if a = k then Memory.drop m a else (k, c) :: Memory.drop m a

/-- Write a byte and keep the canonical form: the value an unlisted address reads as is not listed. -/
def Memory.set (rom : GlyphRom) (m : List Host.Cell) (a : Nat) (b : Byte) : List Host.Cell :=
  if b = Memory.background rom a then Memory.drop m a else Memory.put m a b

/-- The canonical form from address `lo` upward: addresses strictly rising and below 4096, no entry equal to what an
unlisted address reads as. -/
def Memory.wfFrom (rom : GlyphRom) : Nat → List Host.Cell → Bool
  | _, [] => true
  | lo, (k, b) :: m =>
    decide (lo ≤ k) && decide (k < 4096) && decide (b ≠ Memory.background rom k) && Memory.wfFrom rom (k + 1) m

/-- The canonical form of a memory. -/
def Memory.wf (rom : GlyphRom) (m : List Host.Cell) : Bool := Memory.wfFrom rom 0 m

/-! ### Memory accesses (00_scope.md R9, 20_memory.md R65 to R67) -/

/-- MemRead(a, 1): defined only for 0 ≤ a ≤ 4095 (R9). -/
def State.readByte (s : State) (a : Nat) : Option Byte :=
  if a < 4096 then some (Memory.get s.cfg.glyphRom s.mem a) else none

/-- MemWrite(a, 1, v): defined only for 0 ≤ a ≤ 4095 (R9). -/
def State.writeByte (s : State) (a : Nat) (b : Byte) : Option State :=
  if a < 4096 then some { s with mem := Memory.set s.cfg.glyphRom s.mem a b } else none

/-- The bytes at a, a+1, … in ascending order (R65); none if any of the addresses is out of range (R66). No address
is touched when the count is 0. -/
def State.loadBytes (s : State) : Nat → Nat → Option (List Byte)
  | _, 0 => some []
  | a, n + 1 =>
    match s.readByte a, s.loadBytes (a + 1) n with
    | some b, some bs => some (b :: bs)
    | _, _ => none

/-- Store bytes at a, a+1, … in ascending order (R65); none, and so no byte stored, if any of the addresses is out of
range (R66). -/
def State.storeBytes (s : State) : Nat → List Byte → Option State
  | _, [] => some s
  | a, b :: bs =>
    match s.writeByte a b with
    | some t => t.storeBytes (a + 1) bs
    | none => none

/-! ### Registers (10_state.md R21) -/

/-- V[x]. -/
def State.reg (s : State) (x : Reg) : Byte := s.v[x.val]

/-- V[x] <- b. -/
def State.setReg (s : State) (x : Reg) (b : Byte) : State := { s with v := s.v.set x.val b }

/-- V[k] <- bs[k] for every k below the length of bs; the other registers keep their values (R202). -/
def State.setRegs (s : State) (bs : List Byte) : State :=
  { s with v := Vector.ofFn fun k : Fin 16 => (bs[k.val]?).getD s.v[k.val] }

/-- pc <- pc + 2 on top of the fetch's advance (41_control_flow.md R120). -/
def State.skip (s : State) : State := { s with pc := s.pc + 2 }

/-- pc <- pc + 2 if the condition holds (R120). -/
def State.skipIf (s : State) (c : Bool) : State := if c then s.skip else s

/-! ### The framebuffer (10_state.md R30) -/

/-- FB[x][y], for x below 64 and y below 32; a cell outside the grid does not exist and is off. -/
def Fb.cell (fb : Vector (BitVec 64) 32) (x y : Nat) : Bool :=
  if h : y < 32 then fb[y].getLsbD x else false

/-- FB[x][y] <- FB[x][y] ^ 1. -/
def Fb.toggle (fb : Vector (BitVec 64) 32) (x y : Nat) : Vector (BitVec 64) 32 :=
  if h : y < 32 then fb.set y (fb[y] ^^^ BitVec.twoPow 64 x) else fb

/-- FB[x][y]. -/
def State.cell (s : State) (x y : Nat) : Bool := Fb.cell s.fb x y

/-- One pixel of a sprite row at column x0 + c (44_framebuffer.md R180): if bit 7 − c of the row byte is set, the cell
at column (x0 + c) mod 64 of row y is toggled, and a cell that was on records a collision. -/
def Fb.drawPixel (x0 y : Nat) (b : Byte) (p : Vector (BitVec 64) 32 × Bool) (c : Nat) : Vector (BitVec 64) 32 × Bool :=
  if b.getLsbD (7 - c) then
    (Fb.toggle p.1 ((x0 + c) % 64) y, p.2 || Fb.cell p.1 ((x0 + c) % 64) y)
  else p

/-- One sprite row, most significant bit leftmost (R180). -/
def Fb.drawRow (x0 y : Nat) (b : Byte) (p : Vector (BitVec 64) 32 × Bool) : Vector (BitVec 64) 32 × Bool :=
  [0, 1, 2, 3, 4, 5, 6, 7].foldl (Fb.drawPixel x0 y b) p

/-- The sprite's rows from row y0 downward, each wrapping modulo 32 (R180). -/
def Fb.drawRows (x0 : Nat) : Nat → List Byte → Vector (BitVec 64) 32 × Bool → Vector (BitVec 64) 32 × Bool
  | _, [], p => p
  | y, b :: bs, p => Fb.drawRows x0 (y + 1) bs (Fb.drawRow x0 (y % 32) b p)

/-! ### The random input (10_state.md R35, 43_index_random.md R173) -/

/-- The byte on the port RND in this Cycle: the host's, or a free value where the model is told none. -/
def State.rndByte (s : State) : Byte :=
  match s.rndIn with
  | b :: _ => b
  | [] => Config.freeRnd s.rndCount

/-! ### Taking a fault (60_exceptions.md R220, R221) -/

/-- The code FAULT_CAUSE holds (R220). -/
def Fault.code : Fault → BitVec 4
  | .fetchBounds => 1
  | .fetchMisaligned => 2
  | .stackOverflow => 3
  | .stackUnderflow => 4
  | .memBounds => 5
  | .keyIndex => 6

/-- FaultEntry(s, cause, a, op, info), applied to the state s from before the Cycle (R221): the block halts, the
fault record is written, UNK_STROBE is 0 and everything else keeps its value; the opcode latch ends with the Cycle
(10_state.md R34, log entry 4). -/
def faultEntry (s : State) (cause : Fault) (a op : Word) (info : BitVec 17) : State :=
  { s with halted := true, faultCause := cause.code, faultPc := a, faultOpcode := op, faultInfo := info,
           unkStrobe := false, op := 0 }

/-- raise Fault(cause, info) in Execute (00_scope.md R10, 40_cycle.md R108). Execute runs at the fetch address plus 2
with the opcode latched, and every rule checks before it writes, so the state from before the Cycle is this one with
the pc moved back by 2 (DEDUCED, safe, log entry 7). -/
def State.raise (s : State) (cause : Fault) (info : BitVec 17) : State :=
  faultEntry { s with pc := s.pc - 2 } cause (s.pc - 2) s.op info

/-- FAULT_INFO of an access through I: max(I, 4096), the lowest out-of-range address (20_memory.md R66, R220). -/
def State.memFaultInfo (s : State) : BitVec 17 := BitVec.ofNat 17 (max s.i.toNat 4096)

/-- There is no return from a fault: only RESET leaves the halted state, and it resets everything (R224, R250). The
parameters are fixed for the life of the instance (R20), and the host's random bytes are the environment's (R34), so
these stay (log entries 1 and 2). -/
def State.resetMove (s : State) : State :=
  { State.resetWith s.cfg with rndIn := s.rndIn, rndCount := s.rndCount }

/-! ### The Cycle around Execute (40_cycle.md R101 to R107) -/

/-- A STEP has come: from now on no LOAD (70_reset_and_hazards.md R255). -/
def State.beginCycle (s : State) : State := { s with loadOpen := false }

/-- Fetch (40_cycle.md R101): the alignment check of PC_ALIGN = FAULT first, then the bounds check, then two bytes as
one big-endian word. -/
def State.fetch (s : State) : Except (Fault × BitVec 17) Word :=
  if s.cfg.pcAlign = .fault ∧ s.pc.toNat % 2 = 1 then
    .error (.fetchMisaligned, BitVec.ofNat 17 s.pc.toNat)
  else
    match s.readByte s.pc.toNat, s.readByte (s.pc.toNat + 1) with
    | some hi, some lo => .ok (wordOfBytes hi lo)
    | _, _ => .error (.fetchBounds, BitVec.ofNat 17 (if s.pc.toNat > 4095 then s.pc.toNat else s.pc.toNat + 1))

/-- PC advance (R102), with the fetched word in the opcode latch (10_state.md R34): the state Execute starts in. -/
def State.enterExecute (s : State) (op : Word) : State := { s with pc := s.pc + 2, op := op }

/-- An unmapped word: UNKCNT counts modulo 2^32 and UNK_STROBE is set (40_cycle.md R105). -/
def State.countUnmapped (s : State) : State := { s with unkCnt := s.unkCnt + 1, unkStrobe := true }

/-- One timer's step: decremented by 1 when greater than 0 (R106). -/
def tick (b : Byte) : Byte := if 0 < b.toNat then b - 1 else b

/-- The timer step (R106); the opcode is discarded (10_state.md R34) and the Cycle's random byte is used up. -/
def State.finishCycle (s : State) : State :=
  { s with dt := tick s.dt, st := tick s.st, op := 0, rndIn := s.rndIn.tail, rndCount := s.rndCount + 1 }

/-- After Execute: a Cycle that took a fault is over as it stands (R108); any other sets UNK_STROBE to 0 (R105) and
runs the timer step (R106). -/
def State.completeCycle (s : State) : State :=
  if s.halted then s else ({ s with unkStrobe := false } : State).finishCycle

/-- A STEP on a halted block changes nothing except that UNK_STROBE is 0 (R107). -/
def State.haltedStep (s : State) : State := { s with unkStrobe := false }

/-! ### Ports (10_state.md R35, R36) and host moves (70_reset_and_hazards.md R254) -/

/-- FB_OUT: bit y*64 + x is FB[x][y] (R36). -/
def State.fbOutBit (s : State) (k : Fin 2048) : Bool := s.cell (k.val % 64) (k.val / 64)

/-- FB_OUT[2047:0] as a list of bits, bit 0 first (R36). -/
def State.fbOut (s : State) : List Bool := (List.finRange 2048).map s.fbOutBit

/-- SOUND_ON = (ST ≠ 0) (60_exceptions.md R230). -/
def State.soundOn (s : State) : Bool := decide (s.st ≠ 0)

/-- The host writes the keypad levels between Cycles (10_state.md R27). -/
def State.writeKey (s : State) (k : BitVec 16) : State := { s with key := k }

/-- LOAD(image): the ROM's bytes at 0x200 upward, only between RESET and the first STEP and only once; an image of
more than 3584 bytes is refused with no state change (70_reset_and_hazards.md R255). -/
def State.load (s : State) (image : List Byte) : Host.Outcome State Fault Refusal :=
  if s.loadOpen then
    if imageWellFormed image then
      match s.storeBytes 0x200 image with
      | some t => .next { t with loadOpen := false }
      | none => .refused .imageTooLong
    else .refused .imageTooLong
  else .refused .loadClosed

end Sys2Proof.Machine
end

