-- ==== Sys2Proof/Machine/Operands.lean ====
section
/-! DEFINITION. The operand forms: what each instruction computes from its operands, sampled from the state Execute
starts in (00_scope.md R11). -/

namespace Sys2Proof.Machine

/-- zext_16(NNN): a jump or call target, or the new I (30_encoding.md R82). -/
def zextNNN (nnn : Addr12) : Word := nnn.setWidth 16

/-- The target of JP V0, NNN: NNN + V0 (43_index_random.md R171). -/
def indexedTarget (s : State) (nnn : Addr12) : Word := zextNNN nnn + (s.reg 0).setWidth 16

/-- The shifted operand: Vx, or Vy when SHIFT_SOURCE = VY (42_moves_alu.md R150). -/
def shiftOperand (s : State) (x y : Reg) : Byte :=
  match s.cfg.shiftSource with
  | .vx => s.reg x
  | .vy => s.reg y

/-- The glyph address 0x50 + 5*Vx, with Vx used whole (46_memory_transfer.md R203). -/
def glyphAddress (b : Byte) : Word := BitVec.ofNat 16 (0x50 + 5 * b.toNat)

/-- The hundreds, tens and ones digits of a byte, in store order (46_memory_transfer.md R200). -/
def bcdDigits (b : Byte) : List Byte :=
  [BitVec.ofNat 8 (b.toNat / 100), BitVec.ofNat 8 (b.toNat / 10 % 10), BitVec.ofNat 8 (b.toNat % 10)]

/-- V[0], …, V[X] in ascending order (46_memory_transfer.md R201). -/
def blockOf (s : State) (x : Reg) : List Byte := s.v.toList.take (x.val + 1)

/-- Whether key k is pressed in this Cycle's sample (10_state.md R27). -/
def keyPressed (s : State) (k : Nat) : Bool := s.key.getLsbD k

/-- The lowest index of a pressed key, if any key is pressed (45_keys_timers.md R192). -/
def lowestKey (s : State) : Option Nat := (List.range 16).find? (keyPressed s)

end Sys2Proof.Machine
end

