-- ==== Sys2Proof/Machine/Flags.lean ====
section
/-! DEFINITION. The flag computations and the write of result and flag (10_state.md R22, R23; 42_moves_alu.md R140). -/

namespace Sys2Proof.Machine

/-- A flag as VF holds it: 1 or 0 (R22). -/
def flagByte (f : Bool) : Byte := if f then 1 else 0

/-- The carry of 8XY4: the 9-bit sum exceeds 255 (R147). -/
def carryFlag (a b : Byte) : Bool := decide (a.toNat + b.toNat > 255)

/-- The flag of 8XY5 and 8XY7: strictly greater, unsigned, before the subtraction (R148, R149; 90_conflicts.md C1). -/
def greaterFlag (a b : Byte) : Bool := decide (a.toNat > b.toNat)

/-- The flag of 8XY6: bit 0 of the operand (R151). -/
def lowBitFlag (a : Byte) : Bool := a.getLsbD 0

/-- The flag of 8XYE: bit 7 of the operand (R152). -/
def highBitFlag (a : Byte) : Bool := a.getLsbD 7

/-- WriteRF(X, r, f): result and flag in the order VF_WRITE_ORDER says; the orders differ only when X = 15 (R140). -/
def State.writeRF (s : State) (x : Reg) (r : Byte) (f : Bool) : State :=
  match s.cfg.vfWriteOrder with
  | .flagLast => (s.setReg x r).setReg VF (flagByte f)
  | .resultLast => (s.setReg VF (flagByte f)).setReg x r

end Sys2Proof.Machine
end

