-- ==== Sys2Proof/Machine/Alu.lean ====
section
/-! DEFINITION. The ALU: bitwise operations without a flag, and the five operations that define one (42_moves_alu.md
R144 to R152). Operands are sampled before either write (00_scope.md R11). -/

namespace Sys2Proof.Machine

/-- OR Vx, Vy (R144). -/
def execOr (x y : Reg) (s : State) : Host.Outcome State Fault Refusal :=
  .next (s.setReg x (s.reg x ||| s.reg y))

/-- AND Vx, Vy (R145). -/
def execAnd (x y : Reg) (s : State) : Host.Outcome State Fault Refusal :=
  .next (s.setReg x (s.reg x &&& s.reg y))

/-- XOR Vx, Vy (R146). -/
def execXor (x y : Reg) (s : State) : Host.Outcome State Fault Refusal :=
  .next (s.setReg x (s.reg x ^^^ s.reg y))

/-- ADD Vx, Vy (R147): VF is the carry out of the 9-bit sum. -/
def execAddReg (x y : Reg) (s : State) : Host.Outcome State Fault Refusal :=
  .next (s.writeRF x (s.reg x + s.reg y) (carryFlag (s.reg x) (s.reg y)))

/-- SUB Vx, Vy (R148): VF is 1 iff Vx > Vy strictly. -/
def execSub (x y : Reg) (s : State) : Host.Outcome State Fault Refusal :=
  .next (s.writeRF x (s.reg x - s.reg y) (greaterFlag (s.reg x) (s.reg y)))

/-- SUBN Vx, Vy (R149): Vy − Vx, VF is 1 iff Vy > Vx strictly. -/
def execSubn (x y : Reg) (s : State) : Host.Outcome State Fault Refusal :=
  .next (s.writeRF x (s.reg y - s.reg x) (greaterFlag (s.reg y) (s.reg x)))

/-- SHR Vx {, Vy} (R151): by one bit, VF is the bit shifted out. -/
def execShr (x y : Reg) (s : State) : Host.Outcome State Fault Refusal :=
  .next (s.writeRF x (shiftOperand s x y >>> 1) (lowBitFlag (shiftOperand s x y)))

/-- SHL Vx {, Vy} (R152): by one bit modulo 256, VF is the bit shifted out. -/
def execShl (x y : Reg) (s : State) : Host.Outcome State Fault Refusal :=
  .next (s.writeRF x (shiftOperand s x y <<< 1) (highBitFlag (shiftOperand s x y)))

end Sys2Proof.Machine
end

