-- ==== Sys2Proof/Machine/ControlFlow.lean ====
section
/-! DEFINITION. Control flow: jump, call, return, the four register skips (41_control_flow.md R120 to R127) and the
indexed jump (43_index_random.md R171). Every meaning runs at pc = fetch address + 2 (40_cycle.md R102). -/

namespace Sys2Proof.Machine

/-- JP NNN (R121). -/
def execJp (nnn : Addr12) (s : State) : Host.Outcome State Fault Refusal :=
  .next { s with pc := zextNNN nnn }

/-- CALL NNN (R122): STACK_OVERFLOW with 16 entries in use, else push pc and jump. -/
def execCall (nnn : Addr12) (s : State) : Host.Outcome State Fault Refusal :=
  if h : s.sp.val < 16 then
    .next { s with stack := s.stack.set s.sp.val s.pc, sp := ⟨s.sp.val + 1, by omega⟩, pc := zextNNN nnn }
  else .next (s.raise .stackOverflow 16)

/-- RET (R123): STACK_UNDERFLOW on an empty stack, else pop into pc; the popped entry keeps its value. -/
def execRet (s : State) : Host.Outcome State Fault Refusal :=
  match s.sp with
  | ⟨0, _⟩ => .next (s.raise .stackUnderflow 0)
  | ⟨k + 1, h⟩ => .next { s with sp := ⟨k, by omega⟩, pc := s.stack[k] }

/-- SE Vx, NN (R124). -/
def execSeImm (x : Reg) (nn : Byte) (s : State) : Host.Outcome State Fault Refusal :=
  .next (s.skipIf (decide (s.reg x = nn)))

/-- SNE Vx, NN (R125). -/
def execSneImm (x : Reg) (nn : Byte) (s : State) : Host.Outcome State Fault Refusal :=
  .next (s.skipIf (decide (s.reg x ≠ nn)))

/-- SE Vx, Vy (R126). -/
def execSeReg (x y : Reg) (s : State) : Host.Outcome State Fault Refusal :=
  .next (s.skipIf (decide (s.reg x = s.reg y)))

/-- SNE Vx, Vy (R127). -/
def execSneReg (x y : Reg) (s : State) : Host.Outcome State Fault Refusal :=
  .next (s.skipIf (decide (s.reg x ≠ s.reg y)))

/-- JP V0, NNN (R171): the register is always V0. -/
def execJpV0 (nnn : Addr12) (s : State) : Host.Outcome State Fault Refusal :=
  .next { s with pc := indexedTarget s nnn }

end Sys2Proof.Machine
end

