-- ==== Sys2Proof/Machine/Framebuffer.lean ====
section
/-! DEFINITION. The two writers of the framebuffer (44_framebuffer.md R180 to R182). -/

namespace Sys2Proof.Machine

/-- CLS (R181): every cell off, VF unchanged. -/
def execCls (s : State) : Host.Outcome State Fault Refusal :=
  .next { s with fb := Vector.replicate 32 0 }

/-- DRW Vx, Vy, N (R180): the sprite bytes at I are checked and read first, then XORed in at (Vx mod 64, Vy mod 32)
with each coordinate wrapping; VF is the collision flag. With N = 0 nothing is read, so nothing can fault. -/
def execDrw (x y : Reg) (n : Fin 16) (s : State) : Host.Outcome State Fault Refusal :=
  match s.loadBytes s.i.toNat n.val with
  | none => .next (s.raise .memBounds s.memFaultInfo)
  | some sprite =>
    let p := Fb.drawRows ((s.reg x).toNat % 64) ((s.reg y).toNat % 32) sprite (s.fb, false)
    .next (({ s with fb := p.1 } : State).setReg VF (flagByte p.2))

end Sys2Proof.Machine
end

