-- ==== Sys2Proof/Machine/IndexRandom.lean ====
section
/-! DEFINITION. The index register (43_index_random.md R170, R172; 46_memory_transfer.md R203) and the random byte
(43_index_random.md R173). None of these touches memory (20_memory.md R60). -/

namespace Sys2Proof.Machine

/-- LD I, NNN (R170). -/
def execLdI (nnn : Addr12) (s : State) : Host.Outcome State Fault Refusal :=
  .next { s with i := zextNNN nnn }

/-- ADD I, Vx (R172): modulo 2^16, no flag. -/
def execAddI (x : Reg) (s : State) : Host.Outcome State Fault Refusal :=
  .next { s with i := s.i + (s.reg x).setWidth 16 }

/-- RND Vx, NN (R173): this Cycle's random byte AND NN. -/
def execRnd (x : Reg) (nn : Byte) (s : State) : Host.Outcome State Fault Refusal :=
  .next (s.setReg x (s.rndByte &&& nn))

/-- LD F, Vx (R203): 0x50 + 5*Vx, no mask, no fault. -/
def execLdF (x : Reg) (s : State) : Host.Outcome State Fault Refusal :=
  .next { s with i := glyphAddress (s.reg x) }

end Sys2Proof.Machine
end

