-- ==== Sys2Proof/Machine/KeysTimers.lean ====
section
/-! DEFINITION. Key test, key wait and the timers (45_keys_timers.md R190 to R195). DT and ST are read and written
before this Cycle's timer step (40_cycle.md R106). -/

namespace Sys2Proof.Machine

/-- SKP Vx (R190): KEY_INDEX for Vx > 15, else skip if key Vx is pressed. -/
def execSkp (x : Reg) (s : State) : Host.Outcome State Fault Refusal :=
  if (s.reg x).toNat > 15 then .next (s.raise .keyIndex ((s.reg x).setWidth 17))
  else .next (s.skipIf (keyPressed s (s.reg x).toNat))

/-- SKNP Vx (R191): KEY_INDEX for Vx > 15, else skip if key Vx is released. -/
def execSknp (x : Reg) (s : State) : Host.Outcome State Fault Refusal :=
  if (s.reg x).toNat > 15 then .next (s.raise .keyIndex ((s.reg x).setWidth 17))
  else .next (s.skipIf (!keyPressed s (s.reg x).toNat))

/-- LD Vx, K (R192): the lowest pressed key, or pc moved back by 2 so that this instruction runs again. -/
def execLdVxK (x : Reg) (s : State) : Host.Outcome State Fault Refusal :=
  match lowestKey s with
  | some k => .next (s.setReg x (BitVec.ofNat 8 k))
  | none => .next { s with pc := s.pc - 2 }

/-- LD Vx, DT (R193). -/
def execLdVxDt (x : Reg) (s : State) : Host.Outcome State Fault Refusal :=
  .next (s.setReg x s.dt)

/-- LD DT, Vx (R194). -/
def execLdDt (x : Reg) (s : State) : Host.Outcome State Fault Refusal :=
  .next { s with dt := s.reg x }

/-- LD ST, Vx (R195). -/
def execLdSt (x : Reg) (s : State) : Host.Outcome State Fault Refusal :=
  .next { s with st := s.reg x }

end Sys2Proof.Machine
end

