-- ==== Sys2Proof/Machine/MemoryTransfer.lean ====
section
/-! DEFINITION. BCD store and block register transfer (46_memory_transfer.md R200 to R202). Every access is checked
over its whole range before any byte moves, and I is never changed (20_memory.md R66). -/

namespace Sys2Proof.Machine

/-- LD B, Vx (R200). -/
def execLdB (x : Reg) (s : State) : Host.Outcome State Fault Refusal :=
  match s.storeBytes s.i.toNat (bcdDigits (s.reg x)) with
  | some t => .next t
  | none => .next (s.raise .memBounds s.memFaultInfo)

/-- LD [I], Vx (R201). -/
def execLdMemVx (x : Reg) (s : State) : Host.Outcome State Fault Refusal :=
  match s.storeBytes s.i.toNat (blockOf s x) with
  | some t => .next t
  | none => .next (s.raise .memBounds s.memFaultInfo)

/-- LD Vx, [I] (R202). -/
def execLdVxMem (x : Reg) (s : State) : Host.Outcome State Fault Refusal :=
  match s.loadBytes s.i.toNat (x.val + 1) with
  | some bs => .next (s.setRegs bs)
  | none => .next (s.raise .memBounds s.memFaultInfo)

end Sys2Proof.Machine
end

