-- ==== Sys2Proof/Machine/Moves.lean ====
section
/-! DEFINITION. Moves and the immediate add (42_moves_alu.md R141 to R143): no flag. -/

namespace Sys2Proof.Machine

/-- LD Vx, NN (R141). -/
def execLdImm (x : Reg) (nn : Byte) (s : State) : Host.Outcome State Fault Refusal :=
  .next (s.setReg x nn)

/-- ADD Vx, NN (R142): modulo 256, VF unchanged unless X = 15. -/
def execAddImm (x : Reg) (nn : Byte) (s : State) : Host.Outcome State Fault Refusal :=
  .next (s.setReg x (s.reg x + nn))

/-- LD Vx, Vy (R143). -/
def execLdReg (x y : Reg) (s : State) : Host.Outcome State Fault Refusal :=
  .next (s.setReg x (s.reg y))

end Sys2Proof.Machine
end

