-- ==== Sys2Proof/Machine/Step.lean ====
section
/-! DEFINITION. One STEP is one Cycle (40_cycle.md R100, R109), and where the host places a word to be fetched. -/

namespace Sys2Proof.Machine

/-- The Cycle: halt check, fetch, PC advance, decode, Execute, unknown-opcode accounting, timer step (R100, R109). The
inputs KEY and RND are the port fields of the state. -/
def step (s : State) : Host.Outcome State Fault Refusal :=
  if s.halted then .next s.haltedStep
  else
    match s.beginCycle.fetch with
    | .error (cause, info) => .next (faultEntry s.beginCycle cause s.pc 0 info)
    | .ok op =>
      match decodeWord op with
      | .unmapped => .next ((s.beginCycle.enterExecute op).countUnmapped).finishCycle
      | .instr i =>
        match exec i (s.beginCycle.enterExecute op) with
        | .next r => .next r.completeCycle
        | .fault f => .fault f
        | .refused r => .refused r

/-- s with the table word's bytes stored at pc, where step fetches its next instruction. It changes memory only: a
halted block and a pc from which no two bytes can be fetched stay as they are (log entry 8). -/
def State.withFetchWord (s : State) (nbits w : Nat) : State :=
  (s.storeBytes s.pc.toNat (tableWordBytes nbits w)).getD s

end Sys2Proof.Machine
end

