-- ==== Sys2Proof/Machine/HostMoves.lean ====
section
/-! DEFINITION. The host's moves (70_reset_and_hazards.md R254): the only ways the block's state changes
(10_state.md R37), beside reads, which change nothing. -/

namespace Sys2Proof.Machine

/-- A move of the host. -/
inductive HostMove where
  /-- RESET, at any time (R250). -/
  | reset
  /-- LOAD(image) (R255). -/
  | load (image : List Byte)
  /-- A write of the keypad levels between Cycles (10_state.md R27). -/
  | writeKey (levels : BitVec 16)
  /-- STEP with the byte the host supplies on RND (10_state.md R35). -/
  | step (rnd : Byte)
deriving DecidableEq, Repr

/-- What the block does on a move. -/
def hostMove (m : HostMove) (s : State) : Host.Outcome State Fault Refusal :=
  match m with
  | .reset => .next s.resetMove
  | .load image => s.load image
  | .writeKey levels => .next (s.writeKey levels)
  | .step rnd => step { s with rndIn := [rnd] }

end Sys2Proof.Machine
end

