-- ==== Sys2Proof/Safety.lean ====
section
/-! DEFINITION. The terms the claims are stated in: what an instruction may write (frames), what taking a fault leaves,
the spec's table of faults, the pixels of a sprite, and the invariant of the block. -/

namespace Sys2Proof.Machine

/-- Every word with these fixed bits, whatever its other bits, decodes to the instruction built from its fields
(30_encoding.md R81, R84 to R89). -/
def Encoded (mask fixed : Word) (build : Word → Instr) : Prop :=
  ∀ w : Word, w &&& mask = fixed → decodeWord w = .instr (build w)

/-- What an instruction may write, apart from the program counter: general registers by number, I, the stack with SP,
the timers, the framebuffer, and `count` bytes of memory from address `base` upward. -/
structure Writes where
  regs : List Reg := []
  index : Bool := false
  stack : Bool := false
  delay : Bool := false
  sound : Bool := false
  screen : Bool := false
  base : Nat := 0
  count : Nat := 0
deriving DecidableEq, Repr

/-- What no instruction writes unless it takes a fault: the status registers (10_state.md R32), UNK_STROBE, the opcode
latch, the inputs, LOAD's window and the parameters. -/
def KeepsControl (s t : State) : Prop :=
  t.halted = s.halted ∧ t.faultCause = s.faultCause ∧ t.faultPc = s.faultPc ∧ t.faultOpcode = s.faultOpcode ∧
  t.faultInfo = s.faultInfo ∧ t.unkCnt = s.unkCnt ∧ t.unkStrobe = s.unkStrobe ∧ t.op = s.op ∧ t.key = s.key ∧
  t.rndIn = s.rndIn ∧ t.rndCount = s.rndCount ∧ t.loadOpen = s.loadOpen ∧ t.cfg = s.cfg

/-- The frame: everything but the program counter and what `w` names is unchanged. Memory is compared through the read
of one byte, the framebuffer cell by cell. -/
def Frame (w : Writes) (s t : State) : Prop :=
  (∀ r, r ∉ w.regs → t.reg r = s.reg r) ∧
  (w.index = false → t.i = s.i) ∧
  (w.stack = false → t.sp = s.sp ∧ t.stack = s.stack) ∧
  (w.delay = false → t.dt = s.dt) ∧
  (w.sound = false → t.st = s.st) ∧
  (w.screen = false → ∀ x y, t.cell x y = s.cell x y) ∧
  (∀ a, ¬(w.base ≤ a ∧ a < w.base + w.count) → t.readByte a = s.readByte a) ∧
  KeepsControl s t

/-- The state a fault raised in Execute leaves, s being the state Execute started in, at fetch address + 2
(60_exceptions.md R221, 40_cycle.md R108): the record is written, the pc is the faulting instruction's address, and
everything else is unchanged. Reading the fault off Execute's state is DEDUCED (log entry 7); that the latch is then 0,
and the random input and LOAD's window as Execute found them, is DESIGN CHOICE (log entries 4, 2 and 5). -/
def TakesFault (s t : State) (code : BitVec 4) (info : Nat) : Prop :=
  t.halted = true ∧ t.faultCause = code ∧ t.faultPc = s.pc - 2 ∧ t.faultOpcode = s.op ∧ t.faultInfo.toNat = info ∧
  t.unkStrobe = false ∧ t.pc = s.pc - 2 ∧ t.op = 0 ∧
  t.v = s.v ∧ t.i = s.i ∧ t.sp = s.sp ∧ t.stack = s.stack ∧ t.dt = s.dt ∧ t.st = s.st ∧ t.mem = s.mem ∧
  t.fb = s.fb ∧ t.unkCnt = s.unkCnt ∧ t.key = s.key ∧ t.rndIn = s.rndIn ∧ t.rndCount = s.rndCount ∧
  t.loadOpen = s.loadOpen ∧ t.cfg = s.cfg

/-- How many bytes an instruction accesses through I (20_memory.md R65). -/
def accessCount : Instr → Nat
  | .drw _ _ n => n.val
  | .ldB _ => 3
  | .ldMemVx x => x.val + 1
  | .ldVxMem x => x.val + 1
  | _ => 0

/-- The execute faults of 60_exceptions.md R220: the code and FAULT_INFO an instruction raises in a state, if any. -/
def expectedFault (i : Instr) (s : State) : Option (BitVec 4 × Nat) :=
  match i with
  | .call _ => if s.sp.val = 16 then some (3, 16) else none
  | .ret => if s.sp.val = 0 then some (4, 0) else none
  | .skp x => if (s.reg x).toNat > 15 then some (6, (s.reg x).toNat) else none
  | .sknp x => if (s.reg x).toNat > 15 then some (6, (s.reg x).toNat) else none
  | i =>
    if 0 < accessCount i ∧ s.i.toNat + accessCount i > 4096 then some (5, max s.i.toNat 4096) else none

/-- Result and flag as WriteRF leaves them (42_moves_alu.md R140): result in VX and flag in VF, and for X = 15 the one
VF_WRITE_ORDER keeps; nothing else changes. -/
def WritesResultAndFlag (s t : State) (x : Reg) (r f : Byte) : Prop :=
  (x ≠ VF → t.reg x = r ∧ t.reg VF = f) ∧
  (x = VF → s.cfg.vfWriteOrder = .flagLast → t.reg VF = f) ∧
  (x = VF → s.cfg.vfWriteOrder = .resultLast → t.reg VF = r) ∧
  t.pc = s.pc ∧ Frame { regs := [x, VF] } s t

/-- Whether a sprite drawn at (x0, y0) has a set pixel at column x, row y: some row r and column c of the sprite, with
bit 7 − c of the row set, lands there after each coordinate wraps (44_framebuffer.md R180). -/
def SpriteCovers (sprite : List Byte) (x0 y0 x y : Nat) : Prop :=
  ∃ r c b, sprite[r]? = some b ∧ c < 8 ∧ b.getLsbD (7 - c) = true ∧ x = (x0 + c) % 64 ∧ y = (y0 + r) % 32

/-- The block is parked (70_reset_and_hazards.md R261): the instruction at pc is a jump to pc. -/
def State.parked (s : State) : Prop :=
  ∃ word nnn, s.fetch = .ok word ∧ decodeWord word = .instr (.jp nnn) ∧ nnn.toNat = s.pc.toNat

/-- The fault record fits HALTED (60_exceptions.md R222): all zero while the block runs; once halted, one of the six
causes, recorded at the pc the block stopped at, with UNK_STROBE 0 and LOAD closed. -/
def State.recordFits (s : State) : Prop :=
  if s.halted then
    1 ≤ s.faultCause.toNat ∧ s.faultCause.toNat ≤ 6 ∧ s.faultPc = s.pc ∧ s.unkStrobe = false ∧ s.loadOpen = false
  else s.faultCause = 0 ∧ s.faultPc = 0 ∧ s.faultOpcode = 0 ∧ s.faultInfo = 0

/-- The invariant of the block between Cycles: memory is in canonical form; PC is at most 0x10FE, the largest value any
instruction produces (41_control_flow.md R128); every stack entry is a return address, at most 0x1000 (R123); the opcode
latch is empty (10_state.md R34); the fault record fits. -/
def State.Inv (s : State) : Prop :=
  Memory.wf s.cfg.glyphRom s.mem = true ∧ s.pc.toNat ≤ 0x10FE ∧ (∀ k : Fin 16, s.stack[k.val].toNat ≤ 0x1000) ∧
  s.op = 0 ∧ s.recordFits

end Sys2Proof.Machine
end

