-- ==== Sys2Proof/Certificates/Slice0/Obligations.lean ====
section
/-! DEFINITION. The statements for the provers, from the numbered rules of spec/. Statements about one instruction are
about exec, whose state is the one Execute starts in: pc is the fetch address plus 2 and op is the fetched word; the
words that encode the instruction are stated beside its effect. -/

open Sys2Proof Sys2Proof.Machine

/-! ### Reset and the invariant -/

/-- 70_reset_and_hazards.md R250: RESET from any state, the halted state among them, leaves in every register the table
of R250 lists the value it lists, with GLYPH_ROM at 0x050 to 0x09F. -/
def Obligations.ResetGivesTheTableValues : Prop :=
  ∀ s : State, ∃ t, hostMove .reset s = .next t ∧
    (∀ r, t.reg r = 0) ∧ t.i = 0 ∧ t.pc = 0x200 ∧ t.sp = 0 ∧ (∀ k : Fin 16, t.stack[k.val] = 0) ∧ t.dt = 0 ∧ t.st = 0 ∧
    (∀ k (h : k < 80), t.readByte (0x50 + k) = some s.cfg.glyphRom[k]) ∧
    (∀ a, a < 4096 → ¬(0x50 ≤ a ∧ a < 0xA0) → t.readByte a = some 0) ∧ (∀ x y, t.cell x y = false) ∧
    t.halted = false ∧ t.faultCause = 0 ∧ t.faultPc = 0 ∧ t.faultOpcode = 0 ∧ t.faultInfo = 0 ∧ t.unkCnt = 0 ∧
    t.unkStrobe = false ∧ t.key = 0

/-- RESET gives the reset state under the instance's parameters, which it keeps (00_scope.md R5, 10_state.md R20; held
in State by log entry 1); the host's own random bytes stay. The reset state is what RESET makes of itself, and its
parameters are the spec's defaults (R5). What becomes of the random input, the latch and LOAD's window is the model's
choice (log entries 2, 4 and 5). -/
def Obligations.ResetMoveGivesTheResetState : Prop :=
  (∀ s : State, hostMove .reset s =
    .next { State.resetWith s.cfg with rndIn := s.rndIn, rndCount := s.rndCount }) ∧
  (∀ s t : State, hostMove .reset s = .next t → t.cfg = s.cfg) ∧
  hostMove .reset State.reset = .next State.reset ∧ State.reset.cfg = Config.default

/-- The invariant holds at reset, under every setting of the parameters. -/
def Obligations.InvariantHoldsAtReset : Prop :=
  (∀ cfg : Config, (State.resetWith cfg).Inv) ∧ State.reset.Inv

/-- From every state with the invariant, reachable or not, a Cycle gives a state with it: canonical memory, PC at most
0x10FE, return addresses at most 0x1000, an empty latch, a fitting fault record. -/
def Obligations.StepKeepsInvariant : Prop :=
  ∀ s t : State, s.Inv → step s = .next t → t.Inv

/-- Every move of the host keeps the invariant: RESET, LOAD of any image, a write of KEY, STEP with any random byte. -/
def Obligations.HostMovesKeepInvariant : Prop :=
  ∀ (m : HostMove) (s t : State), s.Inv → hostMove m s = .next t → t.Inv

/-- 20_memory.md R60 and the canonical form: two states with canonical memories under one GLYPH_ROM that read alike at
every address hold the same memory as data. The canonical form is the model's (INVENTORY.md). -/
def Obligations.CanonicalMemoriesReadingAlikeAreEqual : Prop :=
  ∀ s t : State, t.cfg = s.cfg → Memory.wf s.cfg.glyphRom s.mem = true → Memory.wf t.cfg.glyphRom t.mem = true →
    (∀ a, a < 4096 → t.readByte a = s.readByte a) → t.mem = s.mem

/-! ### The Cycle -/

/-- Every STEP answers a next state: no Cycle is refused, and a fault is taken as a next state (R236, R260). -/
def Obligations.EveryStepAnswersANextState : Prop :=
  ∀ s : State, ∃ t, step s = .next t

/-- The bytes at pc decode to i: step is exec of i at pc + 2 with the word latched, and after it, unless a fault was
taken, UNK_STROBE is 0, both timers count down, the latch is cleared and the Cycle's random byte is used up
(R100, R101, R102, R104 to R106). -/
def Obligations.StepRunsTheDecodedInstruction : Prop :=
  ∀ (s : State) (hi lo : Byte) (i : Instr), s.halted = false →
    ¬(s.cfg.pcAlign = .fault ∧ s.pc.toNat % 2 = 1) →
    s.readByte s.pc.toNat = some hi → s.readByte (s.pc.toNat + 1) = some lo →
    decodeWord (hi ++ lo) = .instr i →
    step s =
      match exec i { s with pc := s.pc + 2, op := hi ++ lo, loadOpen := false } with
      | .next r => .next (if r.halted then r else
          { r with unkStrobe := false, dt := if 0 < r.dt.toNat then r.dt - 1 else r.dt,
                   st := if 0 < r.st.toNat then r.st - 1 else r.st, op := 0, rndIn := r.rndIn.tail,
                   rndCount := r.rndCount + 1 })
      | .fault f => .fault f
      | .refused f => .refused f

/-- 30_encoding.md R93: an unmapped word changes no register, memory byte, stack entry or cell, pc keeps its advance of
2, the timer step runs, UNKCNT is incremented and UNK_STROBE set, and no fault is raised. -/
def Obligations.UnmappedWordIsACountedNoOp : Prop :=
  ∀ (s : State) (hi lo : Byte), s.halted = false →
    ¬(s.cfg.pcAlign = .fault ∧ s.pc.toNat % 2 = 1) →
    s.readByte s.pc.toNat = some hi → s.readByte (s.pc.toNat + 1) = some lo →
    decodeWord (hi ++ lo) = .unmapped →
    ∃ t, step s = .next t ∧ t.pc = s.pc + 2 ∧ t.v = s.v ∧ t.i = s.i ∧ t.sp = s.sp ∧ t.stack = s.stack ∧
      (∀ a, t.readByte a = s.readByte a) ∧ (∀ x y, t.cell x y = s.cell x y) ∧
      t.dt.toNat = s.dt.toNat - 1 ∧ t.st.toNat = s.st.toNat - 1 ∧
      t.unkCnt.toNat = (s.unkCnt.toNat + 1) % 2 ^ 32 ∧ t.unkStrobe = true ∧ t.halted = false ∧
      t.faultCause = s.faultCause ∧ t.faultPc = s.faultPc ∧ t.faultOpcode = s.faultOpcode ∧
      t.faultInfo = s.faultInfo ∧ t.key = s.key ∧ t.cfg = s.cfg

/-- 40_cycle.md R107, 60_exceptions.md R224: a STEP on a halted block changes nothing except that UNK_STROBE is 0; of
all moves of the host only RESET leaves the halted state, it clears the fault record, and no other move changes the
record of a halted block. -/
def Obligations.HaltedBlockOnlyLeavesByReset : Prop :=
  ∀ s : State, s.halted = true →
    step s = .next { s with unkStrobe := false } ∧
    (∃ t, hostMove .reset s = .next t ∧ t.halted = false ∧ t.faultCause = 0 ∧ t.faultPc = 0 ∧ t.faultOpcode = 0 ∧
      t.faultInfo = 0) ∧
    (∀ (m : HostMove) (t : State), hostMove m s = .next t → m ≠ .reset →
      t.halted = true ∧ t.faultCause = s.faultCause ∧ t.faultPc = s.faultPc ∧ t.faultOpcode = s.faultOpcode ∧
      t.faultInfo = s.faultInfo)

/-- 40_cycle.md R101: the alignment check, then the bounds check, then the two bytes as one big-endian word. -/
def Obligations.FetchChecksThenReadsBigEndian : Prop :=
  ∀ s : State,
    (s.cfg.pcAlign = .fault → s.pc.toNat % 2 = 1 →
      s.fetch = .error (.fetchMisaligned, BitVec.ofNat 17 s.pc.toNat)) ∧
    (¬(s.cfg.pcAlign = .fault ∧ s.pc.toNat % 2 = 1) → s.pc.toNat + 1 > 4095 →
      s.fetch = .error (.fetchBounds, BitVec.ofNat 17 (if s.pc.toNat > 4095 then s.pc.toNat else s.pc.toNat + 1))) ∧
    (¬(s.cfg.pcAlign = .fault ∧ s.pc.toNat % 2 = 1) → s.pc.toNat + 1 ≤ 4095 →
      ∃ hi lo w, s.readByte s.pc.toNat = some hi ∧ s.readByte (s.pc.toNat + 1) = some lo ∧ s.fetch = .ok w ∧
        w.toNat = hi.toNat * 256 + lo.toNat)

/-- 60_exceptions.md R221, 40_cycle.md R108: a fault at fetch, or in Execute where expectedFault gives one (R220, R223),
halts the block with the cause, the fetch address, the fetched word or 0, and the info recorded and UNK_STROBE 0, and
changes nothing else; and a running block halts in no other way. What the equalities say of the model's own fields is
the model's choice: the latch ends 0 (log entry 4), LOAD's window closes at the first STEP (log entry 5), and a Cycle
that takes a fault keeps its random byte (log entry 2). -/
def Obligations.FaultsArePrecise : Prop :=
  ∀ s : State, s.halted = false →
    (∀ cause info, s.fetch = .error (cause, info) →
      step s = .next { s with halted := true, faultCause := cause.code, faultPc := s.pc, faultOpcode := 0,
                              faultInfo := info, unkStrobe := false, op := 0, loadOpen := false }) ∧
    (∀ word i code info, s.fetch = .ok word → decodeWord word = .instr i → expectedFault i s = some (code, info) →
      ∃ n : BitVec 17, n.toNat = info ∧
        step s = .next { s with halted := true, faultCause := code, faultPc := s.pc, faultOpcode := word,
                                faultInfo := n, unkStrobe := false, op := 0, loadOpen := false }) ∧
    (∀ t, step s = .next t → t.halted = true →
      (∃ cause info, s.fetch = .error (cause, info)) ∨
      ∃ word i fault, s.fetch = .ok word ∧ decodeWord word = .instr i ∧ expectedFault i s = some fault)

/-- 60_exceptions.md R220, R223, the execute faults: an instruction takes a fault exactly when the table says so, with
the table's code and FAULT_INFO; otherwise it answers a next state that is not halted. The fault clause is TakesFault:
it takes the fault from Execute's state (log entry 7) and leaves the latch 0 (log entry 4), the model's choices. -/
def Obligations.ExecuteFaultsExactlyAsTheTableSays : Prop :=
  ∀ (i : Instr) (s : State), s.halted = false →
    (∀ code info, expectedFault i s = some (code, info) → ∃ t, exec i s = .next t ∧ TakesFault s t code info) ∧
    (expectedFault i s = none → ∃ t, exec i s = .next t ∧ t.halted = false)

/-- 40_cycle.md R106: in every Cycle of a running block that takes no fault, each timer ends one below what Execute
left, or at 0. Execute leaves DT as it was unless the instruction is LD DT, and ST unless it is LD ST. -/
def Obligations.TimersStepOnceInEveryCycle : Prop :=
  ∀ (s t : State) (word : Word), s.halted = false → s.fetch = .ok word → step s = .next t → t.halted = false →
    (∀ x, decodeWord word = .instr (.ldDt x) → t.dt.toNat = (s.reg x).toNat - 1) ∧
    ((∀ x, decodeWord word ≠ .instr (.ldDt x)) → t.dt.toNat = s.dt.toNat - 1) ∧
    (∀ x, decodeWord word = .instr (.ldSt x) → t.st.toNat = (s.reg x).toNat - 1) ∧
    ((∀ x, decodeWord word ≠ .instr (.ldSt x)) → t.st.toNat = s.st.toNat - 1)

/-- 40_cycle.md R105: UNK_STROBE is 1 after a Cycle iff it dispatched to no handler, and UNKCNT counts those Cycles
modulo 2^32 and no others. -/
def Obligations.UnknownOpcodesAreCounted : Prop :=
  ∀ (s t : State) (word : Word), s.halted = false → s.fetch = .ok word → step s = .next t →
    (decodeWord word = .unmapped → t.unkStrobe = true ∧ t.unkCnt.toNat = (s.unkCnt.toNat + 1) % 2 ^ 32) ∧
    (decodeWord word ≠ .unmapped → t.unkStrobe = false ∧ t.unkCnt = s.unkCnt)

/-- A parked block (70_reset_and_hazards.md R261) stays parked, and a step of it changes nothing of the block but that
the timers count down and UNK_STROBE is 0 (the latch, LOAD's window and the random input are the model's fields, log
entries 2, 4 and 5). -/
def Obligations.ParkedBlockOnlyCountsTimersDown : Prop :=
  ∀ s : State, s.halted = false → s.parked →
    ∃ t, step s = .next t ∧ t.parked ∧ t.dt.toNat = s.dt.toNat - 1 ∧ t.st.toNat = s.st.toNat - 1 ∧
      t = { s with dt := t.dt, st := t.st, unkStrobe := false, op := 0, loadOpen := false, rndIn := s.rndIn.tail,
                   rndCount := s.rndCount + 1 }

/-! ### Control flow -/

/-- 41_control_flow.md R121. -/
def Obligations.JumpReplacesPc : Prop :=
  Encoded 0xF000 0x1000 (fun w => .jp (fieldNNN w)) ∧
  (∀ (s : State) (nnn : Addr12), ∃ t, exec (.jp nnn) s = .next t ∧ t.pc.toNat = nnn.toNat ∧ Frame {} s t)

/-- 41_control_flow.md R122: push, count, jump; with 16 entries in use, STACK_OVERFLOW and nothing pushed. The fault
clause is TakesFault: it takes the fault from Execute's state (log entry 7) and leaves the latch 0 (log entry 4), the
model's choices. -/
def Obligations.CallPushesTheReturnAddress : Prop :=
  Encoded 0xF000 0x2000 (fun w => .call (fieldNNN w)) ∧
  (∀ (s : State) (nnn : Addr12),
     (s.sp.val ≠ 16 → ∃ t, exec (.call nnn) s = .next t ∧ t.sp.val = s.sp.val + 1 ∧ t.pc.toNat = nnn.toNat ∧
       (∀ k : Fin 16, t.stack[k.val] = if k.val = s.sp.val then s.pc else s.stack[k.val]) ∧
       Frame { stack := true } s t) ∧
     (s.sp.val = 16 → ∃ t, exec (.call nnn) s = .next t ∧ TakesFault s t 3 16))

/-- 41_control_flow.md R123: pop into pc, the popped entry keeps its value; on an empty stack, STACK_UNDERFLOW. The
fault clause is TakesFault: it takes the fault from Execute's state (log entry 7) and leaves the latch 0 (log entry
4), the model's choices. -/
def Obligations.ReturnPopsIntoPc : Prop :=
  Encoded 0xF00F 0x000E (fun _ => .ret) ∧
  (∀ s : State,
     (∀ k : Fin 16, s.sp.val = k.val + 1 → ∃ t, exec .ret s = .next t ∧ t.sp.val = k.val ∧ t.pc = s.stack[k.val] ∧
       t.stack = s.stack ∧ Frame { stack := true } s t) ∧
     (s.sp.val = 0 → ∃ t, exec .ret s = .next t ∧ TakesFault s t 4 0))

/-- A return after a call, wherever the called code has moved pc meanwhile, restores pc and SP and every entry below SP
(R122 and R123 together). -/
def Obligations.ReturnUndoesCall : Prop :=
  ∀ (s t u : State) (nnn : Addr12) (p : Word), s.sp.val ≠ 16 → exec (.call nnn) s = .next t →
    exec .ret { t with pc := p } = .next u →
    u.pc = s.pc ∧ u.sp = s.sp ∧ (∀ k : Fin 16, k.val < s.sp.val → u.stack[k.val] = s.stack[k.val]) ∧
    Frame { stack := true } s u

/-- 41_control_flow.md R124 to R127: the four register skips move pc by a further 2 exactly when the condition holds,
and change nothing else. -/
def Obligations.RegisterSkipsAddTwoWhenTheConditionHolds : Prop :=
  Encoded 0xF000 0x3000 (fun w => .seImm (fieldX w) (fieldNN w)) ∧
  Encoded 0xF000 0x4000 (fun w => .sneImm (fieldX w) (fieldNN w)) ∧
  Encoded 0xF000 0x5000 (fun w => .seReg (fieldX w) (fieldY w)) ∧
  Encoded 0xF000 0x9000 (fun w => .sneReg (fieldX w) (fieldY w)) ∧
  (∀ (s : State) (x y : Reg) (nn : Byte),
     (∃ t, exec (.seImm x nn) s = .next t ∧ t.pc = (if s.reg x = nn then s.pc + 2 else s.pc) ∧ Frame {} s t) ∧
     (∃ t, exec (.sneImm x nn) s = .next t ∧ t.pc = (if s.reg x = nn then s.pc else s.pc + 2) ∧ Frame {} s t) ∧
     (∃ t, exec (.seReg x y) s = .next t ∧ t.pc = (if s.reg x = s.reg y then s.pc + 2 else s.pc) ∧ Frame {} s t) ∧
     (∃ t, exec (.sneReg x y) s = .next t ∧ t.pc = (if s.reg x = s.reg y then s.pc else s.pc + 2) ∧ Frame {} s t))

/-- 43_index_random.md R171: the register is always V0, and the sum needs no wrap. -/
def Obligations.IndexedJumpAddsV0 : Prop :=
  Encoded 0xF000 0xB000 (fun w => .jpV0 (fieldNNN w)) ∧
  (∀ (s : State) (nnn : Addr12),
     ∃ t, exec (.jpV0 nnn) s = .next t ∧ t.pc.toNat = nnn.toNat + (s.reg 0).toNat ∧ Frame {} s t)

/-! ### Moves and the ALU -/

/-- 42_moves_alu.md R141, R142, R143: one register written, no flag. -/
def Obligations.MovesWriteOneRegister : Prop :=
  Encoded 0xF000 0x6000 (fun w => .ldImm (fieldX w) (fieldNN w)) ∧
  Encoded 0xF000 0x7000 (fun w => .addImm (fieldX w) (fieldNN w)) ∧
  Encoded 0xF00F 0x8000 (fun w => .ldReg (fieldX w) (fieldY w)) ∧
  (∀ (s : State) (x y : Reg) (nn : Byte),
     (∃ t, exec (.ldImm x nn) s = .next t ∧ t.reg x = nn ∧ t.pc = s.pc ∧ Frame { regs := [x] } s t) ∧
     (∃ t, exec (.addImm x nn) s = .next t ∧ (t.reg x).toNat = ((s.reg x).toNat + nn.toNat) % 256 ∧ t.pc = s.pc ∧
       Frame { regs := [x] } s t) ∧
     (∃ t, exec (.ldReg x y) s = .next t ∧ t.reg x = s.reg y ∧ t.pc = s.pc ∧ Frame { regs := [x] } s t))

/-- 42_moves_alu.md R144, R145, R146: bit by bit, no flag side effect. -/
def Obligations.BitwiseOperationsHaveNoFlag : Prop :=
  Encoded 0xF00F 0x8001 (fun w => .or (fieldX w) (fieldY w)) ∧
  Encoded 0xF00F 0x8002 (fun w => .and (fieldX w) (fieldY w)) ∧
  Encoded 0xF00F 0x8003 (fun w => .xor (fieldX w) (fieldY w)) ∧
  (∀ (s : State) (x y : Reg),
     (∃ t, exec (.or x y) s = .next t ∧
       (∀ k, (t.reg x).getLsbD k = ((s.reg x).getLsbD k || (s.reg y).getLsbD k)) ∧ t.pc = s.pc ∧
       Frame { regs := [x] } s t) ∧
     (∃ t, exec (.and x y) s = .next t ∧
       (∀ k, (t.reg x).getLsbD k = ((s.reg x).getLsbD k && (s.reg y).getLsbD k)) ∧ t.pc = s.pc ∧
       Frame { regs := [x] } s t) ∧
     (∃ t, exec (.xor x y) s = .next t ∧
       (∀ k, (t.reg x).getLsbD k = ((s.reg x).getLsbD k ^^ (s.reg y).getLsbD k)) ∧ t.pc = s.pc ∧
       Frame { regs := [x] } s t))

/-- 42_moves_alu.md R147: the low 8 bits of the sum, and VF = 1 iff the 9-bit sum exceeds 255. -/
def Obligations.AddSetsCarry : Prop :=
  Encoded 0xF00F 0x8004 (fun w => .addReg (fieldX w) (fieldY w)) ∧
  (∀ (s : State) (x y : Reg),
     ∃ t r, exec (.addReg x y) s = .next t ∧ r.toNat = ((s.reg x).toNat + (s.reg y).toNat) % 256 ∧
       WritesResultAndFlag s t x r (if (s.reg x).toNat + (s.reg y).toNat > 255 then 1 else 0))

/-- 42_moves_alu.md R148, R149: differences modulo 256, and VF = 1 iff the minuend is strictly greater. -/
def Obligations.SubtractsSetStrictlyGreaterFlag : Prop :=
  Encoded 0xF00F 0x8005 (fun w => .sub (fieldX w) (fieldY w)) ∧
  Encoded 0xF00F 0x8007 (fun w => .subn (fieldX w) (fieldY w)) ∧
  (∀ (s : State) (x y : Reg),
     (∃ t r, exec (.sub x y) s = .next t ∧ r.toNat = ((s.reg x).toNat + 256 - (s.reg y).toNat) % 256 ∧
       WritesResultAndFlag s t x r (if (s.reg x).toNat > (s.reg y).toNat then 1 else 0)) ∧
     (∃ t r, exec (.subn x y) s = .next t ∧ r.toNat = ((s.reg y).toNat + 256 - (s.reg x).toNat) % 256 ∧
       WritesResultAndFlag s t x r (if (s.reg y).toNat > (s.reg x).toNat then 1 else 0)))

/-- 42_moves_alu.md R150, R151, R152: SHIFT_SOURCE picks the operand, the shift is by one bit, VF is the bit shifted
out. -/
def Obligations.ShiftsSetTheBitShiftedOut : Prop :=
  Encoded 0xF00F 0x8006 (fun w => .shr (fieldX w) (fieldY w)) ∧
  Encoded 0xF00F 0x800E (fun w => .shl (fieldX w) (fieldY w)) ∧
  (∀ (s : State) (x y : Reg) (src : Byte),
     (s.cfg.shiftSource = .vx → src = s.reg x) → (s.cfg.shiftSource = .vy → src = s.reg y) →
     (∃ t r, exec (.shr x y) s = .next t ∧ r.toNat = src.toNat / 2 ∧
       WritesResultAndFlag s t x r (if src.toNat % 2 = 1 then 1 else 0)) ∧
     (∃ t r, exec (.shl x y) s = .next t ∧ r.toNat = src.toNat * 2 % 256 ∧
       WritesResultAndFlag s t x r (if src.toNat ≥ 128 then 1 else 0)))

/-! ### Index register and random byte -/

/-- 43_index_random.md R170, R172; 46_memory_transfer.md R203: only I changes; ADD I wraps at 2^16 without a flag; LD F
uses Vx whole. -/
def Obligations.IndexInstructionsWriteOnlyI : Prop :=
  Encoded 0xF000 0xA000 (fun w => .ldI (fieldNNN w)) ∧
  Encoded 0xF0FF 0xF01E (fun w => .addI (fieldX w)) ∧
  Encoded 0xF0FF 0xF029 (fun w => .ldF (fieldX w)) ∧
  (∀ (s : State) (x : Reg) (nnn : Addr12),
     (∃ t, exec (.ldI nnn) s = .next t ∧ t.i.toNat = nnn.toNat ∧ t.pc = s.pc ∧ Frame { index := true } s t) ∧
     (∃ t, exec (.addI x) s = .next t ∧ t.i.toNat = (s.i.toNat + (s.reg x).toNat) % 65536 ∧ t.pc = s.pc ∧
       Frame { index := true } s t) ∧
     (∃ t, exec (.ldF x) s = .next t ∧ t.i.toNat = 0x50 + 5 * (s.reg x).toNat ∧ t.pc = s.pc ∧
       Frame { index := true } s t))

/-- 43_index_random.md R173, 10_state.md R35: VX is the Cycle's random byte AND NN: the host's byte where the state
holds one, any byte it may be, and otherwise the free value, about which nothing is assumed. And the byte the host
supplies with its STEP is the Cycle's: STEP with b at a running block that fetches a word CXNN ends with VX = b AND
NN. How the port stands in the state is the model's choice (log entry 2). -/
def Obligations.RandomByteIsMasked : Prop :=
  Encoded 0xF000 0xC000 (fun w => .rnd (fieldX w) (fieldNN w)) ∧
  (∀ (s : State) (x : Reg) (nn : Byte),
     ∃ t, exec (.rnd x nn) s = .next t ∧
       (∀ b rest, s.rndIn = b :: rest → t.reg x = b &&& nn) ∧
       (s.rndIn = [] → t.reg x = Config.freeRnd s.rndCount &&& nn) ∧
       t.pc = s.pc ∧ Frame { regs := [x] } s t) ∧
  (∀ (s : State) (b : Byte) (word : Word), s.halted = false → s.fetch = .ok word → word &&& 0xF000 = 0xC000 →
     ∃ t, hostMove (.step b) s = .next t ∧ t.reg (fieldX word) = b &&& fieldNN word ∧
       (∀ r, r ≠ fieldX word → t.reg r = s.reg r) ∧ t.pc = s.pc + 2)

/-! ### Framebuffer -/

/-- 44_framebuffer.md R181. -/
def Obligations.ClearScreenTurnsEveryCellOff : Prop :=
  Encoded 0xF00F 0x0000 (fun _ => .cls) ∧
  (∀ s : State, ∃ t, exec .cls s = .next t ∧ (∀ x y, t.cell x y = false) ∧ t.pc = s.pc ∧ Frame { screen := true } s t)

/-- 44_framebuffer.md R180: with the sprite bytes in range, exactly the cells the sprite covers, wrapping at both edges,
are inverted, VF is 1 iff a covered cell was on, and nothing else changes; with a byte out of range, MEM_BOUNDS and no
cell changes. With N = 0 nothing is read and nothing faults. The fault clause is TakesFault: it
takes the fault from Execute's state (log entry 7) and leaves the latch 0 (log entry 4), the model's choices. -/
def Obligations.DrawXorsTheSpriteAndReportsCollision : Prop :=
  Encoded 0xF000 0xD000 (fun w => .drw (fieldX w) (fieldY w) (fieldN w)) ∧
  (∀ (s : State) (x y : Reg) (n : Fin 16),
     (∀ sprite : List Byte, sprite.length = n.val →
       (∀ r (h : r < sprite.length), s.readByte (s.i.toNat + r) = some sprite[r]) →
       ∃ t, exec (.drw x y n) s = .next t ∧
         (∀ cx cy, cx < 64 → cy < 32 →
           (SpriteCovers sprite ((s.reg x).toNat % 64) ((s.reg y).toNat % 32) cx cy → t.cell cx cy = !s.cell cx cy) ∧
           (¬SpriteCovers sprite ((s.reg x).toNat % 64) ((s.reg y).toNat % 32) cx cy → t.cell cx cy = s.cell cx cy)) ∧
         ((∃ cx cy, cx < 64 ∧ cy < 32 ∧ s.cell cx cy = true ∧
             SpriteCovers sprite ((s.reg x).toNat % 64) ((s.reg y).toNat % 32) cx cy) → t.reg VF = 1) ∧
         ((¬∃ cx cy, cx < 64 ∧ cy < 32 ∧ s.cell cx cy = true ∧
             SpriteCovers sprite ((s.reg x).toNat % 64) ((s.reg y).toNat % 32) cx cy) → t.reg VF = 0) ∧
         t.pc = s.pc ∧ Frame { regs := [VF], screen := true } s t) ∧
     (n.val > 0 → s.i.toNat + n.val - 1 > 4095 →
       ∃ t, exec (.drw x y n) s = .next t ∧ TakesFault s t 5 (max s.i.toNat 4096)))

/-- Drawing the same sprite twice at the same place restores every cell, and the second draw reports a collision iff
the sprite has a set pixel and the first draw reported none of them already on (95_test_vectors.md E7): stated for a
screen on which the first draw found no collision. -/
def Obligations.DrawingTwiceRestoresTheScreen : Prop :=
  ∀ (s t u : State) (x y : Reg) (n : Fin 16), x ≠ VF → y ≠ VF → s.i.toNat + n.val ≤ 4096 →
    exec (.drw x y n) s = .next t → exec (.drw x y n) t = .next u →
    (∀ cx cy, u.cell cx cy = s.cell cx cy) ∧
    (t.reg VF = 0 → (u.reg VF = 1 ↔ ∃ cx cy, t.cell cx cy ≠ s.cell cx cy))

/-- 44_framebuffer.md R182, 10_state.md R30: a Cycle that changes the framebuffer ran CLS or DRW. -/
def Obligations.OnlyClsAndDrwChangeTheFramebuffer : Prop :=
  ∀ s t : State, step s = .next t → t.fb ≠ s.fb →
    ∃ word, s.fetch = .ok word ∧
      (decodeWord word = .instr .cls ∨ ∃ x y n, decodeWord word = .instr (.drw x y n))

/-! ### Keys and timers -/

/-- 45_keys_timers.md R190, R191: skip if pressed, skip if not pressed, and KEY_INDEX for Vx > 15. The fault clause is
TakesFault: it takes the fault from Execute's state (log entry 7) and leaves the latch 0 (log entry 4), the model's
choices. -/
def Obligations.KeySkipsTestTheSample : Prop :=
  Encoded 0xF00F 0xE00E (fun w => .skp (fieldX w)) ∧
  Encoded 0xF00F 0xE001 (fun w => .sknp (fieldX w)) ∧
  (∀ (s : State) (x : Reg),
     ((s.reg x).toNat ≤ 15 →
       (∃ t, exec (.skp x) s = .next t ∧
         t.pc = (if s.key.getLsbD (s.reg x).toNat then s.pc + 2 else s.pc) ∧ Frame {} s t) ∧
       (∃ t, exec (.sknp x) s = .next t ∧
         t.pc = (if s.key.getLsbD (s.reg x).toNat then s.pc else s.pc + 2) ∧ Frame {} s t)) ∧
     ((s.reg x).toNat > 15 →
       (∃ t, exec (.skp x) s = .next t ∧ TakesFault s t 6 (s.reg x).toNat) ∧
       (∃ t, exec (.sknp x) s = .next t ∧ TakesFault s t 6 (s.reg x).toNat)))

/-- 45_keys_timers.md R192: the lowest pressed key goes to VX; with no key pressed only pc changes, moved back by 2 to
the instruction itself. -/
def Obligations.KeyWaitTakesTheLowestKeyOrRepeats : Prop :=
  Encoded 0xF0FF 0xF00A (fun w => .ldVxK (fieldX w)) ∧
  (∀ (s : State) (x : Reg),
     (∀ k : Fin 16, s.key.getLsbD k.val = true → (∀ j : Fin 16, j < k → s.key.getLsbD j.val = false) →
       ∃ t, exec (.ldVxK x) s = .next t ∧ (t.reg x).toNat = k.val ∧ t.pc = s.pc ∧ Frame { regs := [x] } s t) ∧
     ((∀ k : Fin 16, s.key.getLsbD k.val = false) →
       ∃ t, exec (.ldVxK x) s = .next t ∧ t.pc = s.pc - 2 ∧ Frame {} s t))

/-- 45_keys_timers.md R193, R194, R195, in Execute, before the Cycle's timer step. -/
def Obligations.TimerInstructionsMoveOneByte : Prop :=
  Encoded 0xF0FF 0xF007 (fun w => .ldVxDt (fieldX w)) ∧
  Encoded 0xF0FF 0xF015 (fun w => .ldDt (fieldX w)) ∧
  Encoded 0xF0FF 0xF018 (fun w => .ldSt (fieldX w)) ∧
  (∀ (s : State) (x : Reg),
     (∃ t, exec (.ldVxDt x) s = .next t ∧ t.reg x = s.dt ∧ t.pc = s.pc ∧ Frame { regs := [x] } s t) ∧
     (∃ t, exec (.ldDt x) s = .next t ∧ t.dt = s.reg x ∧ t.pc = s.pc ∧ Frame { delay := true } s t) ∧
     (∃ t, exec (.ldSt x) s = .next t ∧ t.st = s.reg x ∧ t.pc = s.pc ∧ Frame { sound := true } s t))

/-! ### Memory transfer -/

/-- 46_memory_transfer.md R200: hundreds, tens and ones at I, I+1, I+2, nothing else; or MEM_BOUNDS and no byte. The
fault clause is TakesFault: it takes the fault from Execute's state (log entry 7) and leaves the latch 0 (log entry
4), the model's choices. -/
def Obligations.BcdStoresThreeDigits : Prop :=
  Encoded 0xF0FF 0xF033 (fun w => .ldB (fieldX w)) ∧
  (∀ (s : State) (x : Reg),
     (s.i.toNat + 2 ≤ 4095 → ∃ t b2 b1 b0, exec (.ldB x) s = .next t ∧
       t.readByte s.i.toNat = some b2 ∧ t.readByte (s.i.toNat + 1) = some b1 ∧ t.readByte (s.i.toNat + 2) = some b0 ∧
       b2.toNat = (s.reg x).toNat / 100 ∧ b1.toNat = (s.reg x).toNat / 10 % 10 ∧ b0.toNat = (s.reg x).toNat % 10 ∧
       t.pc = s.pc ∧ Frame { base := s.i.toNat, count := 3 } s t) ∧
     (s.i.toNat + 2 > 4095 → ∃ t, exec (.ldB x) s = .next t ∧ TakesFault s t 5 (max s.i.toNat 4096)))

/-- 46_memory_transfer.md R201: V0 to VX at I upward, I unchanged, nothing else; or MEM_BOUNDS and no byte. The fault
clause is TakesFault: it takes the fault from Execute's state (log entry 7) and leaves the latch 0 (log entry 4), the
model's choices. -/
def Obligations.BlockStoreWritesV0ToVx : Prop :=
  Encoded 0xF0FF 0xF055 (fun w => .ldMemVx (fieldX w)) ∧
  (∀ (s : State) (x : Reg),
     (s.i.toNat + x.val ≤ 4095 → ∃ t, exec (.ldMemVx x) s = .next t ∧
       (∀ k : Reg, k ≤ x → t.readByte (s.i.toNat + k.val) = some (s.reg k)) ∧
       t.pc = s.pc ∧ Frame { base := s.i.toNat, count := x.val + 1 } s t) ∧
     (s.i.toNat + x.val > 4095 → ∃ t, exec (.ldMemVx x) s = .next t ∧ TakesFault s t 5 (max s.i.toNat 4096)))

/-- 46_memory_transfer.md R202: the bytes at I upward to V0 to VX, I and the registers above X unchanged; or
MEM_BOUNDS. The fault clause is TakesFault: it
takes the fault from Execute's state (log entry 7) and leaves the latch 0 (log entry 4), the model's choices. -/
def Obligations.BlockLoadReadsV0ToVx : Prop :=
  Encoded 0xF0FF 0xF065 (fun w => .ldVxMem (fieldX w)) ∧
  (∀ (s : State) (x : Reg),
     (s.i.toNat + x.val ≤ 4095 → ∃ t, exec (.ldVxMem x) s = .next t ∧
       (∀ k : Reg, k ≤ x → s.readByte (s.i.toNat + k.val) = some (t.reg k)) ∧ (∀ k : Reg, x < k → t.reg k = s.reg k) ∧
       t.pc = s.pc ∧ Frame { regs := List.finRange 16 } s t) ∧
     (s.i.toNat + x.val > 4095 → ∃ t, exec (.ldVxMem x) s = .next t ∧ TakesFault s t 5 (max s.i.toNat 4096)))

/-- 95_test_vectors.md E9: a block store, then any change of the registers, then a block load with the same I restores
V0 to VX exactly, for every X. -/
def Obligations.BlockStoreThenLoadRestoresRegisters : Prop :=
  ∀ (s t u : State) (x : Reg) (v : Vector Byte 16), s.i.toNat + x.val ≤ 4095 →
    exec (.ldMemVx x) s = .next t → exec (.ldVxMem x) { t with v := v } = .next u →
    (∀ k : Reg, k ≤ x → u.reg k = s.reg k) ∧ u.i = s.i

/-- 20_memory.md R70: after bytes are stored from address a upward, a read of a stored address gives the byte stored
there and a read of any other address what it gave before; a store that would leave the address space stores nothing. -/
def Obligations.ReadsReturnTheLastWrite : Prop :=
  ∀ (s : State) (a : Nat) (bs : List Byte),
    (∀ t, s.storeBytes a bs = some t →
      (∀ k (h : k < bs.length), t.readByte (a + k) = some bs[k]) ∧
      (∀ c, ¬(a ≤ c ∧ c < a + bs.length) → t.readByte c = s.readByte c)) ∧
    (s.storeBytes a bs = none ↔ bs ≠ [] ∧ a + bs.length > 4096)

/-- 20_memory.md R72: a byte pair stored at the address the next Cycle fetches from is what that fetch reads,
big-endian, with nothing needed in between. -/
def Obligations.FetchSeesEarlierStores : Prop :=
  ∀ (s t : State) (hi lo : Byte), s.storeBytes s.pc.toNat [hi, lo] = some t →
    ¬(s.cfg.pcAlign = .fault ∧ s.pc.toNat % 2 = 1) → t.fetch = .ok (hi ++ lo)

/-- 20_memory.md R60: a Cycle that changes what some address reads as ran LD B or LD [I]. -/
def Obligations.OnlyStoresChangeMemory : Prop :=
  ∀ s t : State, step s = .next t → (∃ a, t.readByte a ≠ s.readByte a) →
    ∃ word x, s.fetch = .ok word ∧ (decodeWord word = .instr (.ldB x) ∨ decodeWord word = .instr (.ldMemVx x))

/-! ### Which instructions write and read what -/

/-- 10_state.md R25: a Cycle that changes I ran LD I, ADD I or LD F. -/
def Obligations.OnlyIndexInstructionsChangeI : Prop :=
  ∀ s t : State, step s = .next t → t.i ≠ s.i →
    ∃ word x nnn, s.fetch = .ok word ∧
      (decodeWord word = .instr (.ldI nnn) ∨ decodeWord word = .instr (.addI x) ∨ decodeWord word = .instr (.ldF x))

/-- 10_state.md R26: a Cycle that changes SP or a stack entry ran CALL or RET. -/
def Obligations.OnlyCallAndRetChangeTheStack : Prop :=
  ∀ s t : State, step s = .next t → (t.sp ≠ s.sp ∨ t.stack ≠ s.stack) →
    ∃ word, s.fetch = .ok word ∧ (decodeWord word = .instr .ret ∨ ∃ nnn, decodeWord word = .instr (.call nnn))

/-- 10_state.md R23: an instruction that changes VF is one of the six that define a flag, or names VF as its
destination register (for LD Vx,[I], X = 15). -/
def Obligations.OnlyFlagInstructionsAndDestinationsChangeVf : Prop :=
  ∀ (i : Instr) (s t : State), exec i s = .next t → t.reg VF ≠ s.reg VF →
    (∃ x y, i = .addReg x y ∨ i = .sub x y ∨ i = .subn x y ∨ i = .shr x y ∨ i = .shl x y ∨ ∃ n, i = .drw x y n) ∨
    (∃ y nn, i = .ldImm VF nn ∨ i = .addImm VF nn ∨ i = .ldReg VF y ∨ i = .or VF y ∨ i = .and VF y ∨ i = .xor VF y ∨
      i = .rnd VF nn ∨ i = .ldVxDt VF ∨ i = .ldVxK VF ∨ i = .ldVxMem VF)

/-- 60_exceptions.md R231, 10_state.md R27: the keypad is read by SKP, SKNP and LD Vx, K only: for every other
instruction the outcome is the same, whatever the keys, but for the port itself. -/
def Obligations.OnlyKeyInstructionsReadTheKeypad : Prop :=
  ∀ (i : Instr) (s t : State) (k : BitVec 16), (∀ x, i ≠ .skp x ∧ i ≠ .sknp x ∧ i ≠ .ldVxK x) →
    exec i s = .next t → exec i { s with key := k } = .next { t with key := k }

/-- 60_exceptions.md R233: the random byte is read by RND only: for every other instruction the outcome is the same,
whatever bytes the host supplies, but for the port itself. -/
def Obligations.OnlyRndReadsTheRandomInput : Prop :=
  ∀ (i : Instr) (s t : State) (bytes : List Byte) (n : Nat), (∀ x nn, i ≠ .rnd x nn) →
    exec i s = .next t →
    exec i { s with rndIn := bytes, rndCount := n } = .next { t with rndIn := bytes, rndCount := n }

/-- 00_scope.md R5, 10_state.md R20: no move of the host changes the configuration parameters. -/
def Obligations.ParametersNeverChange : Prop :=
  ∀ (m : HostMove) (s t : State), hostMove m s = .next t → t.cfg = s.cfg

/-! ### Host moves and ports -/

/-- 70_reset_and_hazards.md R255: LOAD is allowed only between RESET and the first STEP or earlier LOAD; an image of at
most 3584 bytes is copied to 0x200 upward and nothing else changes; a longer one is refused. The window as a field is
the model's (log entry 5). -/
def Obligations.LoadCopiesTheImage : Prop :=
  ∀ (s : State) (image : List Byte),
    (s.loadOpen = true → image.length ≤ 3584 → ∃ t, hostMove (.load image) s = .next t ∧
      (∀ k (h : k < image.length), t.readByte (0x200 + k) = some image[k]) ∧
      (∀ a, ¬(0x200 ≤ a ∧ a < 0x200 + image.length) → t.readByte a = s.readByte a) ∧
      t = { s with mem := t.mem, loadOpen := false }) ∧
    (s.loadOpen = true → image.length > 3584 → hostMove (.load image) s = .refused .imageTooLong) ∧
    (s.loadOpen = false → hostMove (.load image) s = .refused .loadClosed) ∧
    (∀ t, hostMove .reset s = .next t → t.loadOpen = true) ∧
    (∀ t, step s = .next t → s.halted = false → t.loadOpen = false)

/-- 70_reset_and_hazards.md R254, 10_state.md R27: the host's write of KEY puts the levels into KEY and touches nothing
else, in the halted state too. That KEY is held in State between writes is the model's (log entry 3). -/
def Obligations.WriteKeyChangesTheKeypadAlone : Prop :=
  ∀ (s : State) (k : BitVec 16), hostMove (.writeKey k) s = .next { s with key := k }

/-- 70_reset_and_hazards.md R254, 10_state.md R35: the host's STEP with a byte is one Cycle with that byte, alone, on
the port RND, whatever the instruction. The list as the port's form is the model's (log entry 2). -/
def Obligations.StepMoveIsOneCycleWithTheByte : Prop :=
  ∀ (s : State) (b : Byte), hostMove (.step b) s = step { s with rndIn := [b] }

/-- 10_state.md R36, 60_exceptions.md R230: bit y*64 + x of FB_OUT is FB[x][y], and SOUND_ON is 1 iff ST is not 0. -/
def Obligations.OutputsShowScreenAndSound : Prop :=
  ∀ s : State,
    (∀ x y, x < 64 → y < 32 → ∀ h : y * 64 + x < 2048, s.fbOutBit ⟨y * 64 + x, h⟩ = s.cell x y) ∧
    (∀ k : Fin 2048, s.fbOut[k.val]? = some (s.fbOutBit k)) ∧
    (s.soundOn = true ↔ s.st ≠ 0)

/-! ### Encoding -/

/-- Words written out from 30_encoding.md R95 and the decode vectors of 95_test_vectors.md. -/
def Obligations.KnownWordsDecode : Prop :=
  decodeWord 0x0000 = .instr .cls ∧ decodeWord 0x00E0 = .instr .cls ∧ decodeWord 0x0ABE = .instr .ret ∧
  decodeWord 0x0123 = .unmapped ∧ decodeWord 0x1234 = .instr (.jp 0x234) ∧ decodeWord 0x5121 = .instr (.seReg 1 2) ∧
  decodeWord 0x8AB8 = .unmapped ∧ decodeWord 0x812E = .instr (.shl 1 2) ∧ decodeWord 0xB123 = .instr (.jpV0 0x123) ∧
  decodeWord 0xD125 = .instr (.drw 1 2 5) ∧ decodeWord 0xE10E = .instr (.skp 1) ∧ decodeWord 0xE1A1 = .instr (.sknp 1) ∧
  decodeWord 0xF165 = .instr (.ldVxMem 1) ∧ decodeWord 0xFF1E = .instr (.addI 15) ∧ decodeWord 0xF0FF = .unmapped

/-- Decode and encode agree: every well-formed instruction, with every operand at every value, comes back from its word
and from its two bytes in memory, whatever follows them. -/
def Obligations.DecodeOfEncodeIsTheInstruction : Prop :=
  ∀ (i : Instr) (rest : List Byte), i.wellFormed = true →
    decodeWord (encode i) = .instr i ∧ decodeBytes (encodeBytes i ++ rest) = .ok (i, rest)

/-- 30_encoding.md R91: a word decodes to an instruction only if it fits the mask and match of that instruction's row;
it is UNMAPPED iff it fits no row of the table; and no word fits two rows. -/
def Obligations.DecoderFollowsTheOpcodeTable : Prop :=
  (∀ w i, decodeWord w = .instr i → w &&& i.maskMatch.1 = i.maskMatch.2 ∧ i.maskMatch ∈ opcodeRows) ∧
  (∀ w, decodeWord w = .unmapped ↔ ∀ row ∈ opcodeRows, w &&& row.1 ≠ row.2) ∧
  (∀ w, ∀ r1 ∈ opcodeRows, ∀ r2 ∈ opcodeRows, w &&& r1.1 = r1.2 → w &&& r2.1 = r2.2 → r1 = r2)
end

