-- ==== Sys2Proof/Laws/State.lean ====
section
/-! SUPPORT. One lemma per field per update of State, each true by rfl, so that no later proof unfolds a record update. -/

namespace Sys2Proof.Machine

/-! ### setReg -/
@[simp] theorem setReg_v (s : State) (x : Reg) (b : Byte) : (s.setReg x b).v = s.v.set x.val b := rfl
@[simp] theorem setReg_i (s : State) (x : Reg) (b : Byte) : (s.setReg x b).i = s.i := rfl
@[simp] theorem setReg_pc (s : State) (x : Reg) (b : Byte) : (s.setReg x b).pc = s.pc := rfl
@[simp] theorem setReg_stack (s : State) (x : Reg) (b : Byte) : (s.setReg x b).stack = s.stack := rfl
@[simp] theorem setReg_sp (s : State) (x : Reg) (b : Byte) : (s.setReg x b).sp = s.sp := rfl
@[simp] theorem setReg_dt (s : State) (x : Reg) (b : Byte) : (s.setReg x b).dt = s.dt := rfl
@[simp] theorem setReg_st (s : State) (x : Reg) (b : Byte) : (s.setReg x b).st = s.st := rfl
@[simp] theorem setReg_mem (s : State) (x : Reg) (b : Byte) : (s.setReg x b).mem = s.mem := rfl
@[simp] theorem setReg_fb (s : State) (x : Reg) (b : Byte) : (s.setReg x b).fb = s.fb := rfl
@[simp] theorem setReg_halted (s : State) (x : Reg) (b : Byte) : (s.setReg x b).halted = s.halted := rfl
@[simp] theorem setReg_faultCause (s : State) (x : Reg) (b : Byte) : (s.setReg x b).faultCause = s.faultCause := rfl
@[simp] theorem setReg_faultPc (s : State) (x : Reg) (b : Byte) : (s.setReg x b).faultPc = s.faultPc := rfl
@[simp] theorem setReg_faultOpcode (s : State) (x : Reg) (b : Byte) : (s.setReg x b).faultOpcode = s.faultOpcode := rfl
@[simp] theorem setReg_faultInfo (s : State) (x : Reg) (b : Byte) : (s.setReg x b).faultInfo = s.faultInfo := rfl
@[simp] theorem setReg_unkCnt (s : State) (x : Reg) (b : Byte) : (s.setReg x b).unkCnt = s.unkCnt := rfl
@[simp] theorem setReg_unkStrobe (s : State) (x : Reg) (b : Byte) : (s.setReg x b).unkStrobe = s.unkStrobe := rfl
@[simp] theorem setReg_op (s : State) (x : Reg) (b : Byte) : (s.setReg x b).op = s.op := rfl
@[simp] theorem setReg_key (s : State) (x : Reg) (b : Byte) : (s.setReg x b).key = s.key := rfl
@[simp] theorem setReg_rndIn (s : State) (x : Reg) (b : Byte) : (s.setReg x b).rndIn = s.rndIn := rfl
@[simp] theorem setReg_rndCount (s : State) (x : Reg) (b : Byte) : (s.setReg x b).rndCount = s.rndCount := rfl
@[simp] theorem setReg_loadOpen (s : State) (x : Reg) (b : Byte) : (s.setReg x b).loadOpen = s.loadOpen := rfl
@[simp] theorem setReg_cfg (s : State) (x : Reg) (b : Byte) : (s.setReg x b).cfg = s.cfg := rfl

/-! ### skip -/
@[simp] theorem skip_v (s : State) : (s.skip).v = s.v := rfl
@[simp] theorem skip_i (s : State) : (s.skip).i = s.i := rfl
@[simp] theorem skip_pc (s : State) : (s.skip).pc = s.pc + 2 := rfl
@[simp] theorem skip_stack (s : State) : (s.skip).stack = s.stack := rfl
@[simp] theorem skip_sp (s : State) : (s.skip).sp = s.sp := rfl
@[simp] theorem skip_dt (s : State) : (s.skip).dt = s.dt := rfl
@[simp] theorem skip_st (s : State) : (s.skip).st = s.st := rfl
@[simp] theorem skip_mem (s : State) : (s.skip).mem = s.mem := rfl
@[simp] theorem skip_fb (s : State) : (s.skip).fb = s.fb := rfl
@[simp] theorem skip_halted (s : State) : (s.skip).halted = s.halted := rfl
@[simp] theorem skip_faultCause (s : State) : (s.skip).faultCause = s.faultCause := rfl
@[simp] theorem skip_faultPc (s : State) : (s.skip).faultPc = s.faultPc := rfl
@[simp] theorem skip_faultOpcode (s : State) : (s.skip).faultOpcode = s.faultOpcode := rfl
@[simp] theorem skip_faultInfo (s : State) : (s.skip).faultInfo = s.faultInfo := rfl
@[simp] theorem skip_unkCnt (s : State) : (s.skip).unkCnt = s.unkCnt := rfl
@[simp] theorem skip_unkStrobe (s : State) : (s.skip).unkStrobe = s.unkStrobe := rfl
@[simp] theorem skip_op (s : State) : (s.skip).op = s.op := rfl
@[simp] theorem skip_key (s : State) : (s.skip).key = s.key := rfl
@[simp] theorem skip_rndIn (s : State) : (s.skip).rndIn = s.rndIn := rfl
@[simp] theorem skip_rndCount (s : State) : (s.skip).rndCount = s.rndCount := rfl
@[simp] theorem skip_loadOpen (s : State) : (s.skip).loadOpen = s.loadOpen := rfl
@[simp] theorem skip_cfg (s : State) : (s.skip).cfg = s.cfg := rfl

/-! ### faultEntry -/
@[simp] theorem faultEntry_v (s : State) (c : Fault) (a w : Word) (n : BitVec 17) : (faultEntry s c a w n).v = s.v := rfl
@[simp] theorem faultEntry_i (s : State) (c : Fault) (a w : Word) (n : BitVec 17) : (faultEntry s c a w n).i = s.i := rfl
@[simp] theorem faultEntry_pc (s : State) (c : Fault) (a w : Word) (n : BitVec 17) : (faultEntry s c a w n).pc = s.pc := rfl
@[simp] theorem faultEntry_stack (s : State) (c : Fault) (a w : Word) (n : BitVec 17) : (faultEntry s c a w n).stack = s.stack := rfl
@[simp] theorem faultEntry_sp (s : State) (c : Fault) (a w : Word) (n : BitVec 17) : (faultEntry s c a w n).sp = s.sp := rfl
@[simp] theorem faultEntry_dt (s : State) (c : Fault) (a w : Word) (n : BitVec 17) : (faultEntry s c a w n).dt = s.dt := rfl
@[simp] theorem faultEntry_st (s : State) (c : Fault) (a w : Word) (n : BitVec 17) : (faultEntry s c a w n).st = s.st := rfl
@[simp] theorem faultEntry_mem (s : State) (c : Fault) (a w : Word) (n : BitVec 17) : (faultEntry s c a w n).mem = s.mem := rfl
@[simp] theorem faultEntry_fb (s : State) (c : Fault) (a w : Word) (n : BitVec 17) : (faultEntry s c a w n).fb = s.fb := rfl
@[simp] theorem faultEntry_halted (s : State) (c : Fault) (a w : Word) (n : BitVec 17) : (faultEntry s c a w n).halted = true := rfl
@[simp] theorem faultEntry_faultCause (s : State) (c : Fault) (a w : Word) (n : BitVec 17) : (faultEntry s c a w n).faultCause = c.code := rfl
@[simp] theorem faultEntry_faultPc (s : State) (c : Fault) (a w : Word) (n : BitVec 17) : (faultEntry s c a w n).faultPc = a := rfl
@[simp] theorem faultEntry_faultOpcode (s : State) (c : Fault) (a w : Word) (n : BitVec 17) : (faultEntry s c a w n).faultOpcode = w := rfl
@[simp] theorem faultEntry_faultInfo (s : State) (c : Fault) (a w : Word) (n : BitVec 17) : (faultEntry s c a w n).faultInfo = n := rfl
@[simp] theorem faultEntry_unkCnt (s : State) (c : Fault) (a w : Word) (n : BitVec 17) : (faultEntry s c a w n).unkCnt = s.unkCnt := rfl
@[simp] theorem faultEntry_unkStrobe (s : State) (c : Fault) (a w : Word) (n : BitVec 17) : (faultEntry s c a w n).unkStrobe = false := rfl
@[simp] theorem faultEntry_op (s : State) (c : Fault) (a w : Word) (n : BitVec 17) : (faultEntry s c a w n).op = 0 := rfl
@[simp] theorem faultEntry_key (s : State) (c : Fault) (a w : Word) (n : BitVec 17) : (faultEntry s c a w n).key = s.key := rfl
@[simp] theorem faultEntry_rndIn (s : State) (c : Fault) (a w : Word) (n : BitVec 17) : (faultEntry s c a w n).rndIn = s.rndIn := rfl
@[simp] theorem faultEntry_rndCount (s : State) (c : Fault) (a w : Word) (n : BitVec 17) : (faultEntry s c a w n).rndCount = s.rndCount := rfl
@[simp] theorem faultEntry_loadOpen (s : State) (c : Fault) (a w : Word) (n : BitVec 17) : (faultEntry s c a w n).loadOpen = s.loadOpen := rfl
@[simp] theorem faultEntry_cfg (s : State) (c : Fault) (a w : Word) (n : BitVec 17) : (faultEntry s c a w n).cfg = s.cfg := rfl

/-! ### raise -/
@[simp] theorem raise_v (s : State) (c : Fault) (n : BitVec 17) : (s.raise c n).v = s.v := rfl
@[simp] theorem raise_i (s : State) (c : Fault) (n : BitVec 17) : (s.raise c n).i = s.i := rfl
@[simp] theorem raise_pc (s : State) (c : Fault) (n : BitVec 17) : (s.raise c n).pc = s.pc - 2 := rfl
@[simp] theorem raise_stack (s : State) (c : Fault) (n : BitVec 17) : (s.raise c n).stack = s.stack := rfl
@[simp] theorem raise_sp (s : State) (c : Fault) (n : BitVec 17) : (s.raise c n).sp = s.sp := rfl
@[simp] theorem raise_dt (s : State) (c : Fault) (n : BitVec 17) : (s.raise c n).dt = s.dt := rfl
@[simp] theorem raise_st (s : State) (c : Fault) (n : BitVec 17) : (s.raise c n).st = s.st := rfl
@[simp] theorem raise_mem (s : State) (c : Fault) (n : BitVec 17) : (s.raise c n).mem = s.mem := rfl
@[simp] theorem raise_fb (s : State) (c : Fault) (n : BitVec 17) : (s.raise c n).fb = s.fb := rfl
@[simp] theorem raise_halted (s : State) (c : Fault) (n : BitVec 17) : (s.raise c n).halted = true := rfl
@[simp] theorem raise_faultCause (s : State) (c : Fault) (n : BitVec 17) : (s.raise c n).faultCause = c.code := rfl
@[simp] theorem raise_faultPc (s : State) (c : Fault) (n : BitVec 17) : (s.raise c n).faultPc = s.pc - 2 := rfl
@[simp] theorem raise_faultOpcode (s : State) (c : Fault) (n : BitVec 17) : (s.raise c n).faultOpcode = s.op := rfl
@[simp] theorem raise_faultInfo (s : State) (c : Fault) (n : BitVec 17) : (s.raise c n).faultInfo = n := rfl
@[simp] theorem raise_unkCnt (s : State) (c : Fault) (n : BitVec 17) : (s.raise c n).unkCnt = s.unkCnt := rfl
@[simp] theorem raise_unkStrobe (s : State) (c : Fault) (n : BitVec 17) : (s.raise c n).unkStrobe = false := rfl
@[simp] theorem raise_op (s : State) (c : Fault) (n : BitVec 17) : (s.raise c n).op = 0 := rfl
@[simp] theorem raise_key (s : State) (c : Fault) (n : BitVec 17) : (s.raise c n).key = s.key := rfl
@[simp] theorem raise_rndIn (s : State) (c : Fault) (n : BitVec 17) : (s.raise c n).rndIn = s.rndIn := rfl
@[simp] theorem raise_rndCount (s : State) (c : Fault) (n : BitVec 17) : (s.raise c n).rndCount = s.rndCount := rfl
@[simp] theorem raise_loadOpen (s : State) (c : Fault) (n : BitVec 17) : (s.raise c n).loadOpen = s.loadOpen := rfl
@[simp] theorem raise_cfg (s : State) (c : Fault) (n : BitVec 17) : (s.raise c n).cfg = s.cfg := rfl

/-! ### beginCycle -/
@[simp] theorem beginCycle_v (s : State) : (s.beginCycle).v = s.v := rfl
@[simp] theorem beginCycle_i (s : State) : (s.beginCycle).i = s.i := rfl
@[simp] theorem beginCycle_pc (s : State) : (s.beginCycle).pc = s.pc := rfl
@[simp] theorem beginCycle_stack (s : State) : (s.beginCycle).stack = s.stack := rfl
@[simp] theorem beginCycle_sp (s : State) : (s.beginCycle).sp = s.sp := rfl
@[simp] theorem beginCycle_dt (s : State) : (s.beginCycle).dt = s.dt := rfl
@[simp] theorem beginCycle_st (s : State) : (s.beginCycle).st = s.st := rfl
@[simp] theorem beginCycle_mem (s : State) : (s.beginCycle).mem = s.mem := rfl
@[simp] theorem beginCycle_fb (s : State) : (s.beginCycle).fb = s.fb := rfl
@[simp] theorem beginCycle_halted (s : State) : (s.beginCycle).halted = s.halted := rfl
@[simp] theorem beginCycle_faultCause (s : State) : (s.beginCycle).faultCause = s.faultCause := rfl
@[simp] theorem beginCycle_faultPc (s : State) : (s.beginCycle).faultPc = s.faultPc := rfl
@[simp] theorem beginCycle_faultOpcode (s : State) : (s.beginCycle).faultOpcode = s.faultOpcode := rfl
@[simp] theorem beginCycle_faultInfo (s : State) : (s.beginCycle).faultInfo = s.faultInfo := rfl
@[simp] theorem beginCycle_unkCnt (s : State) : (s.beginCycle).unkCnt = s.unkCnt := rfl
@[simp] theorem beginCycle_unkStrobe (s : State) : (s.beginCycle).unkStrobe = s.unkStrobe := rfl
@[simp] theorem beginCycle_op (s : State) : (s.beginCycle).op = s.op := rfl
@[simp] theorem beginCycle_key (s : State) : (s.beginCycle).key = s.key := rfl
@[simp] theorem beginCycle_rndIn (s : State) : (s.beginCycle).rndIn = s.rndIn := rfl
@[simp] theorem beginCycle_rndCount (s : State) : (s.beginCycle).rndCount = s.rndCount := rfl
@[simp] theorem beginCycle_loadOpen (s : State) : (s.beginCycle).loadOpen = false := rfl
@[simp] theorem beginCycle_cfg (s : State) : (s.beginCycle).cfg = s.cfg := rfl

/-! ### enterExecute -/
@[simp] theorem enterExecute_v (s : State) (w : Word) : (s.enterExecute w).v = s.v := rfl
@[simp] theorem enterExecute_i (s : State) (w : Word) : (s.enterExecute w).i = s.i := rfl
@[simp] theorem enterExecute_pc (s : State) (w : Word) : (s.enterExecute w).pc = s.pc + 2 := rfl
@[simp] theorem enterExecute_stack (s : State) (w : Word) : (s.enterExecute w).stack = s.stack := rfl
@[simp] theorem enterExecute_sp (s : State) (w : Word) : (s.enterExecute w).sp = s.sp := rfl
@[simp] theorem enterExecute_dt (s : State) (w : Word) : (s.enterExecute w).dt = s.dt := rfl
@[simp] theorem enterExecute_st (s : State) (w : Word) : (s.enterExecute w).st = s.st := rfl
@[simp] theorem enterExecute_mem (s : State) (w : Word) : (s.enterExecute w).mem = s.mem := rfl
@[simp] theorem enterExecute_fb (s : State) (w : Word) : (s.enterExecute w).fb = s.fb := rfl
@[simp] theorem enterExecute_halted (s : State) (w : Word) : (s.enterExecute w).halted = s.halted := rfl
@[simp] theorem enterExecute_faultCause (s : State) (w : Word) : (s.enterExecute w).faultCause = s.faultCause := rfl
@[simp] theorem enterExecute_faultPc (s : State) (w : Word) : (s.enterExecute w).faultPc = s.faultPc := rfl
@[simp] theorem enterExecute_faultOpcode (s : State) (w : Word) : (s.enterExecute w).faultOpcode = s.faultOpcode := rfl
@[simp] theorem enterExecute_faultInfo (s : State) (w : Word) : (s.enterExecute w).faultInfo = s.faultInfo := rfl
@[simp] theorem enterExecute_unkCnt (s : State) (w : Word) : (s.enterExecute w).unkCnt = s.unkCnt := rfl
@[simp] theorem enterExecute_unkStrobe (s : State) (w : Word) : (s.enterExecute w).unkStrobe = s.unkStrobe := rfl
@[simp] theorem enterExecute_op (s : State) (w : Word) : (s.enterExecute w).op = w := rfl
@[simp] theorem enterExecute_key (s : State) (w : Word) : (s.enterExecute w).key = s.key := rfl
@[simp] theorem enterExecute_rndIn (s : State) (w : Word) : (s.enterExecute w).rndIn = s.rndIn := rfl
@[simp] theorem enterExecute_rndCount (s : State) (w : Word) : (s.enterExecute w).rndCount = s.rndCount := rfl
@[simp] theorem enterExecute_loadOpen (s : State) (w : Word) : (s.enterExecute w).loadOpen = s.loadOpen := rfl
@[simp] theorem enterExecute_cfg (s : State) (w : Word) : (s.enterExecute w).cfg = s.cfg := rfl

/-! ### countUnmapped -/
@[simp] theorem countUnmapped_v (s : State) : (s.countUnmapped).v = s.v := rfl
@[simp] theorem countUnmapped_i (s : State) : (s.countUnmapped).i = s.i := rfl
@[simp] theorem countUnmapped_pc (s : State) : (s.countUnmapped).pc = s.pc := rfl
@[simp] theorem countUnmapped_stack (s : State) : (s.countUnmapped).stack = s.stack := rfl
@[simp] theorem countUnmapped_sp (s : State) : (s.countUnmapped).sp = s.sp := rfl
@[simp] theorem countUnmapped_dt (s : State) : (s.countUnmapped).dt = s.dt := rfl
@[simp] theorem countUnmapped_st (s : State) : (s.countUnmapped).st = s.st := rfl
@[simp] theorem countUnmapped_mem (s : State) : (s.countUnmapped).mem = s.mem := rfl
@[simp] theorem countUnmapped_fb (s : State) : (s.countUnmapped).fb = s.fb := rfl
@[simp] theorem countUnmapped_halted (s : State) : (s.countUnmapped).halted = s.halted := rfl
@[simp] theorem countUnmapped_faultCause (s : State) : (s.countUnmapped).faultCause = s.faultCause := rfl
@[simp] theorem countUnmapped_faultPc (s : State) : (s.countUnmapped).faultPc = s.faultPc := rfl
@[simp] theorem countUnmapped_faultOpcode (s : State) : (s.countUnmapped).faultOpcode = s.faultOpcode := rfl
@[simp] theorem countUnmapped_faultInfo (s : State) : (s.countUnmapped).faultInfo = s.faultInfo := rfl
@[simp] theorem countUnmapped_unkCnt (s : State) : (s.countUnmapped).unkCnt = s.unkCnt + 1 := rfl
@[simp] theorem countUnmapped_unkStrobe (s : State) : (s.countUnmapped).unkStrobe = true := rfl
@[simp] theorem countUnmapped_op (s : State) : (s.countUnmapped).op = s.op := rfl
@[simp] theorem countUnmapped_key (s : State) : (s.countUnmapped).key = s.key := rfl
@[simp] theorem countUnmapped_rndIn (s : State) : (s.countUnmapped).rndIn = s.rndIn := rfl
@[simp] theorem countUnmapped_rndCount (s : State) : (s.countUnmapped).rndCount = s.rndCount := rfl
@[simp] theorem countUnmapped_loadOpen (s : State) : (s.countUnmapped).loadOpen = s.loadOpen := rfl
@[simp] theorem countUnmapped_cfg (s : State) : (s.countUnmapped).cfg = s.cfg := rfl

/-! ### finishCycle -/
@[simp] theorem finishCycle_v (s : State) : (s.finishCycle).v = s.v := rfl
@[simp] theorem finishCycle_i (s : State) : (s.finishCycle).i = s.i := rfl
@[simp] theorem finishCycle_pc (s : State) : (s.finishCycle).pc = s.pc := rfl
@[simp] theorem finishCycle_stack (s : State) : (s.finishCycle).stack = s.stack := rfl
@[simp] theorem finishCycle_sp (s : State) : (s.finishCycle).sp = s.sp := rfl
@[simp] theorem finishCycle_dt (s : State) : (s.finishCycle).dt = tick s.dt := rfl
@[simp] theorem finishCycle_st (s : State) : (s.finishCycle).st = tick s.st := rfl
@[simp] theorem finishCycle_mem (s : State) : (s.finishCycle).mem = s.mem := rfl
@[simp] theorem finishCycle_fb (s : State) : (s.finishCycle).fb = s.fb := rfl
@[simp] theorem finishCycle_halted (s : State) : (s.finishCycle).halted = s.halted := rfl
@[simp] theorem finishCycle_faultCause (s : State) : (s.finishCycle).faultCause = s.faultCause := rfl
@[simp] theorem finishCycle_faultPc (s : State) : (s.finishCycle).faultPc = s.faultPc := rfl
@[simp] theorem finishCycle_faultOpcode (s : State) : (s.finishCycle).faultOpcode = s.faultOpcode := rfl
@[simp] theorem finishCycle_faultInfo (s : State) : (s.finishCycle).faultInfo = s.faultInfo := rfl
@[simp] theorem finishCycle_unkCnt (s : State) : (s.finishCycle).unkCnt = s.unkCnt := rfl
@[simp] theorem finishCycle_unkStrobe (s : State) : (s.finishCycle).unkStrobe = s.unkStrobe := rfl
@[simp] theorem finishCycle_op (s : State) : (s.finishCycle).op = 0 := rfl
@[simp] theorem finishCycle_key (s : State) : (s.finishCycle).key = s.key := rfl
@[simp] theorem finishCycle_rndIn (s : State) : (s.finishCycle).rndIn = s.rndIn.tail := rfl
@[simp] theorem finishCycle_rndCount (s : State) : (s.finishCycle).rndCount = s.rndCount + 1 := rfl
@[simp] theorem finishCycle_loadOpen (s : State) : (s.finishCycle).loadOpen = s.loadOpen := rfl
@[simp] theorem finishCycle_cfg (s : State) : (s.finishCycle).cfg = s.cfg := rfl

/-! ### haltedStep -/
@[simp] theorem haltedStep_v (s : State) : (s.haltedStep).v = s.v := rfl
@[simp] theorem haltedStep_i (s : State) : (s.haltedStep).i = s.i := rfl
@[simp] theorem haltedStep_pc (s : State) : (s.haltedStep).pc = s.pc := rfl
@[simp] theorem haltedStep_stack (s : State) : (s.haltedStep).stack = s.stack := rfl
@[simp] theorem haltedStep_sp (s : State) : (s.haltedStep).sp = s.sp := rfl
@[simp] theorem haltedStep_dt (s : State) : (s.haltedStep).dt = s.dt := rfl
@[simp] theorem haltedStep_st (s : State) : (s.haltedStep).st = s.st := rfl
@[simp] theorem haltedStep_mem (s : State) : (s.haltedStep).mem = s.mem := rfl
@[simp] theorem haltedStep_fb (s : State) : (s.haltedStep).fb = s.fb := rfl
@[simp] theorem haltedStep_halted (s : State) : (s.haltedStep).halted = s.halted := rfl
@[simp] theorem haltedStep_faultCause (s : State) : (s.haltedStep).faultCause = s.faultCause := rfl
@[simp] theorem haltedStep_faultPc (s : State) : (s.haltedStep).faultPc = s.faultPc := rfl
@[simp] theorem haltedStep_faultOpcode (s : State) : (s.haltedStep).faultOpcode = s.faultOpcode := rfl
@[simp] theorem haltedStep_faultInfo (s : State) : (s.haltedStep).faultInfo = s.faultInfo := rfl
@[simp] theorem haltedStep_unkCnt (s : State) : (s.haltedStep).unkCnt = s.unkCnt := rfl
@[simp] theorem haltedStep_unkStrobe (s : State) : (s.haltedStep).unkStrobe = false := rfl
@[simp] theorem haltedStep_op (s : State) : (s.haltedStep).op = s.op := rfl
@[simp] theorem haltedStep_key (s : State) : (s.haltedStep).key = s.key := rfl
@[simp] theorem haltedStep_rndIn (s : State) : (s.haltedStep).rndIn = s.rndIn := rfl
@[simp] theorem haltedStep_rndCount (s : State) : (s.haltedStep).rndCount = s.rndCount := rfl
@[simp] theorem haltedStep_loadOpen (s : State) : (s.haltedStep).loadOpen = s.loadOpen := rfl
@[simp] theorem haltedStep_cfg (s : State) : (s.haltedStep).cfg = s.cfg := rfl

/-! ### writeKey -/
@[simp] theorem writeKey_v (s : State) (k : BitVec 16) : (s.writeKey k).v = s.v := rfl
@[simp] theorem writeKey_i (s : State) (k : BitVec 16) : (s.writeKey k).i = s.i := rfl
@[simp] theorem writeKey_pc (s : State) (k : BitVec 16) : (s.writeKey k).pc = s.pc := rfl
@[simp] theorem writeKey_stack (s : State) (k : BitVec 16) : (s.writeKey k).stack = s.stack := rfl
@[simp] theorem writeKey_sp (s : State) (k : BitVec 16) : (s.writeKey k).sp = s.sp := rfl
@[simp] theorem writeKey_dt (s : State) (k : BitVec 16) : (s.writeKey k).dt = s.dt := rfl
@[simp] theorem writeKey_st (s : State) (k : BitVec 16) : (s.writeKey k).st = s.st := rfl
@[simp] theorem writeKey_mem (s : State) (k : BitVec 16) : (s.writeKey k).mem = s.mem := rfl
@[simp] theorem writeKey_fb (s : State) (k : BitVec 16) : (s.writeKey k).fb = s.fb := rfl
@[simp] theorem writeKey_halted (s : State) (k : BitVec 16) : (s.writeKey k).halted = s.halted := rfl
@[simp] theorem writeKey_faultCause (s : State) (k : BitVec 16) : (s.writeKey k).faultCause = s.faultCause := rfl
@[simp] theorem writeKey_faultPc (s : State) (k : BitVec 16) : (s.writeKey k).faultPc = s.faultPc := rfl
@[simp] theorem writeKey_faultOpcode (s : State) (k : BitVec 16) : (s.writeKey k).faultOpcode = s.faultOpcode := rfl
@[simp] theorem writeKey_faultInfo (s : State) (k : BitVec 16) : (s.writeKey k).faultInfo = s.faultInfo := rfl
@[simp] theorem writeKey_unkCnt (s : State) (k : BitVec 16) : (s.writeKey k).unkCnt = s.unkCnt := rfl
@[simp] theorem writeKey_unkStrobe (s : State) (k : BitVec 16) : (s.writeKey k).unkStrobe = s.unkStrobe := rfl
@[simp] theorem writeKey_op (s : State) (k : BitVec 16) : (s.writeKey k).op = s.op := rfl
@[simp] theorem writeKey_key (s : State) (k : BitVec 16) : (s.writeKey k).key = k := rfl
@[simp] theorem writeKey_rndIn (s : State) (k : BitVec 16) : (s.writeKey k).rndIn = s.rndIn := rfl
@[simp] theorem writeKey_rndCount (s : State) (k : BitVec 16) : (s.writeKey k).rndCount = s.rndCount := rfl
@[simp] theorem writeKey_loadOpen (s : State) (k : BitVec 16) : (s.writeKey k).loadOpen = s.loadOpen := rfl
@[simp] theorem writeKey_cfg (s : State) (k : BitVec 16) : (s.writeKey k).cfg = s.cfg := rfl

/-! ### setRegs -/
@[simp] theorem setRegs_i (s : State) (bs : List Byte) : (s.setRegs bs).i = s.i := rfl
@[simp] theorem setRegs_pc (s : State) (bs : List Byte) : (s.setRegs bs).pc = s.pc := rfl
@[simp] theorem setRegs_stack (s : State) (bs : List Byte) : (s.setRegs bs).stack = s.stack := rfl
@[simp] theorem setRegs_sp (s : State) (bs : List Byte) : (s.setRegs bs).sp = s.sp := rfl
@[simp] theorem setRegs_dt (s : State) (bs : List Byte) : (s.setRegs bs).dt = s.dt := rfl
@[simp] theorem setRegs_st (s : State) (bs : List Byte) : (s.setRegs bs).st = s.st := rfl
@[simp] theorem setRegs_mem (s : State) (bs : List Byte) : (s.setRegs bs).mem = s.mem := rfl
@[simp] theorem setRegs_fb (s : State) (bs : List Byte) : (s.setRegs bs).fb = s.fb := rfl
@[simp] theorem setRegs_halted (s : State) (bs : List Byte) : (s.setRegs bs).halted = s.halted := rfl
@[simp] theorem setRegs_faultCause (s : State) (bs : List Byte) : (s.setRegs bs).faultCause = s.faultCause := rfl
@[simp] theorem setRegs_faultPc (s : State) (bs : List Byte) : (s.setRegs bs).faultPc = s.faultPc := rfl
@[simp] theorem setRegs_faultOpcode (s : State) (bs : List Byte) : (s.setRegs bs).faultOpcode = s.faultOpcode := rfl
@[simp] theorem setRegs_faultInfo (s : State) (bs : List Byte) : (s.setRegs bs).faultInfo = s.faultInfo := rfl
@[simp] theorem setRegs_unkCnt (s : State) (bs : List Byte) : (s.setRegs bs).unkCnt = s.unkCnt := rfl
@[simp] theorem setRegs_unkStrobe (s : State) (bs : List Byte) : (s.setRegs bs).unkStrobe = s.unkStrobe := rfl
@[simp] theorem setRegs_op (s : State) (bs : List Byte) : (s.setRegs bs).op = s.op := rfl
@[simp] theorem setRegs_key (s : State) (bs : List Byte) : (s.setRegs bs).key = s.key := rfl
@[simp] theorem setRegs_rndIn (s : State) (bs : List Byte) : (s.setRegs bs).rndIn = s.rndIn := rfl
@[simp] theorem setRegs_rndCount (s : State) (bs : List Byte) : (s.setRegs bs).rndCount = s.rndCount := rfl
@[simp] theorem setRegs_loadOpen (s : State) (bs : List Byte) : (s.setRegs bs).loadOpen = s.loadOpen := rfl
@[simp] theorem setRegs_cfg (s : State) (bs : List Byte) : (s.setRegs bs).cfg = s.cfg := rfl

end Sys2Proof.Machine
end

