-- ==== Sys2Proof/Laws/Memory.lean ====
section
/-! SUPPORT. The laws of memory: read over write, the canonical form, and what loadBytes and storeBytes do. -/

namespace Sys2Proof.Machine

/-! ### Read over write -/

theorem find_put_self (m : List Host.Cell) (a : Nat) (b : Byte) : Memory.find (Memory.put m a b) a = some b := by
  induction m with
  | nil => simp [Memory.put, Memory.find]
  | cons e m ih =>
    obtain ⟨k, c⟩ := e
    by_cases h1 : a < k
    · simp [Memory.put, Memory.find, h1]
    · by_cases h2 : a = k
      · simp [Memory.put, Memory.find, h2]
      · simp [Memory.put, Memory.find, h1, h2, ih]

theorem find_put_of_ne (m : List Host.Cell) {a a' : Nat} (b : Byte) (h : a' ≠ a) :
    Memory.find (Memory.put m a b) a' = Memory.find m a' := by
  induction m with
  | nil => simp [Memory.put, Memory.find, h]
  | cons e m ih =>
    obtain ⟨k, c⟩ := e
    by_cases h1 : a < k
    · simp [Memory.put, Memory.find, h1, h]
    · by_cases h2 : a = k
      · subst h2; simp [Memory.put, Memory.find, h]
      · simp [Memory.put, Memory.find, h1, h2, ih]

theorem find_drop_self (m : List Host.Cell) (a : Nat) : Memory.find (Memory.drop m a) a = none := by
  induction m with
  | nil => rfl
  | cons e m ih =>
    obtain ⟨k, c⟩ := e
    by_cases h : a = k
    · simpa [Memory.drop, h] using h ▸ ih
    · simp [Memory.drop, Memory.find, h, ih]

theorem find_drop_of_ne (m : List Host.Cell) {a a' : Nat} (h : a' ≠ a) :
    Memory.find (Memory.drop m a) a' = Memory.find m a' := by
  induction m with
  | nil => rfl
  | cons e m ih =>
    obtain ⟨k, c⟩ := e
    by_cases h1 : a = k
    · subst h1; simp [Memory.drop, Memory.find, h, ih]
    · simp [Memory.drop, Memory.find, h1, ih]

/-- A read after a write to the same address gives the value written. -/
theorem get_set_self (rom : GlyphRom) (m : List Host.Cell) (a : Nat) (b : Byte) :
    Memory.get rom (Memory.set rom m a b) a = b := by
  unfold Memory.get Memory.set
  split
  · rename_i h; simp [find_drop_self, ← h]
  · simp [find_put_self]

/-- A write leaves every other address alone. -/
theorem get_set_of_ne (rom : GlyphRom) (m : List Host.Cell) {a a' : Nat} (b : Byte) (h : a' ≠ a) :
    Memory.get rom (Memory.set rom m a b) a' = Memory.get rom m a' := by
  unfold Memory.get Memory.set
  split
  · simp [find_drop_of_ne m h]
  · simp [find_put_of_ne m b h]

/-! ### The canonical form -/

theorem wfFrom_mono (rom : GlyphRom) {lo lo' : Nat} (m : List Host.Cell) (h : lo' ≤ lo)
    (hm : Memory.wfFrom rom lo m = true) : Memory.wfFrom rom lo' m = true := by
  cases m with
  | nil => rfl
  | cons e m =>
    obtain ⟨k, c⟩ := e
    simp only [Memory.wfFrom, Bool.and_eq_true, decide_eq_true_eq] at hm ⊢
    exact ⟨⟨⟨by omega, hm.1.1.2⟩, hm.1.2⟩, hm.2⟩

theorem wfFrom_put (rom : GlyphRom) (m : List Host.Cell) (lo a : Nat) (b : Byte) (hm : Memory.wfFrom rom lo m = true)
    (hlo : lo ≤ a) (ha : a < 4096) (hb : b ≠ Memory.background rom a) :
    Memory.wfFrom rom lo (Memory.put m a b) = true := by
  induction m generalizing lo with
  | nil => simp [Memory.put, Memory.wfFrom, hlo, ha, hb]
  | cons e m ih =>
    obtain ⟨k, c⟩ := e
    simp only [Memory.wfFrom, Bool.and_eq_true, decide_eq_true_eq] at hm
    obtain ⟨⟨⟨h1, h2⟩, h3⟩, h4⟩ := hm
    by_cases hk : a < k
    · simp only [Memory.put, hk, if_true, Memory.wfFrom, Bool.and_eq_true, decide_eq_true_eq]
      exact ⟨⟨⟨hlo, ha⟩, hb⟩, ⟨⟨by omega, h2⟩, h3⟩, h4⟩
    · by_cases he : a = k
      · subst he
        simp only [Memory.put, hk, if_false, if_true, Memory.wfFrom, Bool.and_eq_true, decide_eq_true_eq]
        exact ⟨⟨⟨hlo, ha⟩, hb⟩, h4⟩
      · simp only [Memory.put, hk, he, if_false, Memory.wfFrom, Bool.and_eq_true, decide_eq_true_eq]
        exact ⟨⟨⟨h1, h2⟩, h3⟩, ih _ h4 (by omega)⟩

theorem wfFrom_drop (rom : GlyphRom) (m : List Host.Cell) (lo a : Nat) (hm : Memory.wfFrom rom lo m = true) :
    Memory.wfFrom rom lo (Memory.drop m a) = true := by
  induction m generalizing lo with
  | nil => rfl
  | cons e m ih =>
    obtain ⟨k, c⟩ := e
    simp only [Memory.wfFrom, Bool.and_eq_true, decide_eq_true_eq] at hm
    obtain ⟨⟨⟨h1, h2⟩, h3⟩, h4⟩ := hm
    by_cases he : a = k
    · subst he
      simp only [Memory.drop, if_true]
      exact wfFrom_mono rom _ (by omega) (ih _ h4)
    · simp only [Memory.drop, he, if_false, Memory.wfFrom, Bool.and_eq_true, decide_eq_true_eq]
      exact ⟨⟨⟨h1, h2⟩, h3⟩, ih _ h4⟩

/-- A write inside the address space keeps the canonical form. -/
theorem wf_set (rom : GlyphRom) (m : List Host.Cell) {a : Nat} (b : Byte) (ha : a < 4096)
    (hm : Memory.wf rom m = true) : Memory.wf rom (Memory.set rom m a b) = true := by
  unfold Memory.set
  split
  · exact wfFrom_drop rom m 0 a hm
  · exact wfFrom_put rom m 0 a b hm (by omega) ha (by assumption)

theorem find_eq_none_of_lt (rom : GlyphRom) (m : List Host.Cell) {lo a : Nat} (hm : Memory.wfFrom rom lo m = true)
    (h : a < lo) : Memory.find m a = none := by
  induction m generalizing lo with
  | nil => rfl
  | cons e m ih =>
    obtain ⟨k, c⟩ := e
    simp only [Memory.wfFrom, Bool.and_eq_true, decide_eq_true_eq] at hm
    obtain ⟨⟨⟨h1, _⟩, _⟩, h4⟩ := hm
    simp [Memory.find, show a ≠ k by omega, ih h4 (by omega)]

/-- Equal memories are equal data: two canonical lists that read alike everywhere are the same list. -/
theorem wfFrom_ext (rom : GlyphRom) (m m' : List Host.Cell) {lo lo' : Nat} (hm : Memory.wfFrom rom lo m = true)
    (hm' : Memory.wfFrom rom lo' m' = true) (h : ∀ a, Memory.get rom m a = Memory.get rom m' a) : m = m' := by
  induction m generalizing m' lo lo' with
  | nil =>
    cases m' with
    | nil => rfl
    | cons e m' =>
      obtain ⟨k, c⟩ := e
      simp only [Memory.wfFrom, Bool.and_eq_true, decide_eq_true_eq] at hm'
      have := h k
      simp [Memory.get, Memory.find] at this
      exact absurd this.symm hm'.1.2
  | cons e m ih =>
    obtain ⟨k, c⟩ := e
    simp only [Memory.wfFrom, Bool.and_eq_true, decide_eq_true_eq] at hm
    cases m' with
    | nil =>
      have := h k
      simp [Memory.get, Memory.find] at this
      exact absurd this hm.1.2
    | cons e' m' =>
      obtain ⟨k', c'⟩ := e'
      simp only [Memory.wfFrom, Bool.and_eq_true, decide_eq_true_eq] at hm'
      have hkk : k = k' := by
        rcases Nat.lt_trichotomy k k' with hlt | heq | hgt
        · have hk := h k
          have hn := find_eq_none_of_lt rom m' hm'.2 (a := k) (by omega)
          simp [Memory.get, Memory.find, hn, show k ≠ k' by omega] at hk
          exact absurd hk hm.1.2
        · exact heq
        · have hk := h k'
          have hn := find_eq_none_of_lt rom m hm.2 (a := k') (by omega)
          simp [Memory.get, Memory.find, hn, show k' ≠ k by omega] at hk
          exact absurd hk.symm hm'.1.2
      subst hkk
      have hc : c = c' := by simpa [Memory.get, Memory.find] using h k
      subst hc
      refine congrArg _ (ih m' hm.2 hm'.2 fun a => ?_)
      by_cases ha : a = k
      · subst ha
        simp [Memory.get, find_eq_none_of_lt rom m hm.2 (Nat.lt_succ_self a),
          find_eq_none_of_lt rom m' hm'.2 (Nat.lt_succ_self a)]
      · simpa [Memory.get, Memory.find, ha] using h a

/-! ### Accesses -/

@[simp] theorem readByte_of_lt (s : State) {a : Nat} (h : a < 4096) :
    s.readByte a = some (Memory.get s.cfg.glyphRom s.mem a) := by simp [State.readByte, h]

@[simp] theorem readByte_of_ge (s : State) {a : Nat} (h : 4096 ≤ a) : s.readByte a = none := by
  simp [State.readByte, Nat.not_lt.mpr h]

/-- What a byte reads as depends on memory and GLYPH_ROM alone. -/
theorem readByte_congr {s t : State} (hm : t.mem = s.mem) (hc : t.cfg = s.cfg) (a : Nat) :
    t.readByte a = s.readByte a := by simp [State.readByte, hm, hc]

theorem loadBytes_congr {s t : State} (hm : t.mem = s.mem) (hc : t.cfg = s.cfg) (a n : Nat) :
    t.loadBytes a n = s.loadBytes a n := by
  induction n generalizing a with
  | zero => rfl
  | succ n ih => simp [State.loadBytes, readByte_congr hm hc, ih]

/-- A read of n bytes that stay in range gives the bytes at a, a+1, …. -/
theorem loadBytes_inRange (s : State) (a n : Nat) (h : n = 0 ∨ a + n ≤ 4096) :
    s.loadBytes a n = some ((List.range n).map fun k => Memory.get s.cfg.glyphRom s.mem (a + k)) := by
  induction n generalizing a with
  | zero => rfl
  | succ n ih =>
    have h' : a + (n + 1) ≤ 4096 := by omega
    rw [State.loadBytes, readByte_of_lt s (by omega), ih (a + 1) (by omega)]
    simp only [List.range_succ_eq_map, List.map_cons, List.map_map, Option.some.injEq]
    refine congrArg₂ _ rfl (List.map_congr_left fun k _ => ?_)
    simp [show a + 1 + k = a + (k + 1) by omega]

/-- A read that leaves the address space gives nothing. -/
theorem loadBytes_outOfRange (s : State) (a n : Nat) (hn : n ≠ 0) (h : 4096 < a + n) : s.loadBytes a n = none := by
  induction n generalizing a with
  | zero => exact absurd rfl hn
  | succ n ih =>
    by_cases ha : a < 4096
    · have : n ≠ 0 := by omega
      simp [State.loadBytes, ih (a + 1) this (by omega)]
    · have h4 : 4096 ≤ a := by omega
      simp [State.loadBytes, readByte_of_ge s h4]

theorem loadBytes_length (s : State) {a n : Nat} {bs : List Byte} (h : s.loadBytes a n = some bs) : bs.length = n := by
  by_cases hr : n = 0 ∨ a + n ≤ 4096
  · rw [loadBytes_inRange s a n hr] at h
    cases h; simp
  · rw [loadBytes_outOfRange s a n (by omega) (by omega)] at h
    cases h

/-- Everything a store of bytes in range does: memory alone changes, the stored addresses read as the bytes, every
other address reads as before, and the canonical form is kept. -/
theorem storeBytes_inRange (s : State) (a : Nat) (bs : List Byte) (h : bs = [] ∨ a + bs.length ≤ 4096) :
    ∃ m, s.storeBytes a bs = some { s with mem := m } ∧
      (∀ k (hk : k < bs.length), Memory.get s.cfg.glyphRom m (a + k) = bs[k]) ∧
      (∀ c, ¬(a ≤ c ∧ c < a + bs.length) → Memory.get s.cfg.glyphRom m c = Memory.get s.cfg.glyphRom s.mem c) ∧
      (Memory.wf s.cfg.glyphRom s.mem = true → Memory.wf s.cfg.glyphRom m = true) := by
  induction bs generalizing s a with
  | nil => exact ⟨s.mem, rfl, by simp, by simp, id⟩
  | cons b bs ih =>
    have hlen : a + (bs.length + 1) ≤ 4096 := by simpa using h
    have ha : a < 4096 := by omega
    obtain ⟨m, hs, hin, hout, hwf⟩ :=
      ih { s with mem := Memory.set s.cfg.glyphRom s.mem a b } (a + 1) (.inr (by omega))
    refine ⟨m, ?_, ?_, ?_, ?_⟩
    · simpa [State.storeBytes, State.writeByte, ha] using hs
    · intro k hk
      cases k with
      | zero =>
        rw [Nat.add_zero, hout a (by omega)]
        simpa using get_set_self s.cfg.glyphRom s.mem a b
      | succ k =>
        have := hin k (by simpa using hk)
        simpa [Nat.add_assoc, Nat.add_comm 1] using this
    · intro c hc
      simp only [List.length_cons] at hc
      rw [hout c (by omega)]
      exact get_set_of_ne s.cfg.glyphRom s.mem b (by omega)
    · intro hw
      exact hwf (wf_set s.cfg.glyphRom s.mem b ha hw)

/-- A store that leaves the address space stores nothing. -/
theorem storeBytes_outOfRange (s : State) (a : Nat) (bs : List Byte) (hn : bs ≠ []) (h : 4096 < a + bs.length) :
    s.storeBytes a bs = none := by
  induction bs generalizing s a with
  | nil => exact absurd rfl hn
  | cons b bs ih =>
    by_cases ha : a < 4096
    · have hb : bs ≠ [] := by rintro rfl; simp at h; omega
      simp only [State.storeBytes, State.writeByte, ha, if_true]
      exact ih _ (a + 1) hb (by simp at h; omega)
    · simp [State.storeBytes, State.writeByte, ha]

/-- A store of bytes changes memory alone. -/
theorem storeBytes_eq (s t : State) (a : Nat) (bs : List Byte) (h : s.storeBytes a bs = some t) :
    t = { s with mem := t.mem } := by
  by_cases hr : bs = [] ∨ a + bs.length ≤ 4096
  · obtain ⟨m, hs, -⟩ := storeBytes_inRange s a bs hr
    rw [hs] at h; cases h; rfl
  · rw [storeBytes_outOfRange s a bs (by tauto) (by omega)] at h
    cases h

/-- A store of bytes keeps the canonical form. -/
theorem storeBytes_wf (s t : State) (a : Nat) (bs : List Byte) (h : s.storeBytes a bs = some t)
    (hw : Memory.wf s.cfg.glyphRom s.mem = true) : Memory.wf t.cfg.glyphRom t.mem = true := by
  by_cases hr : bs = [] ∨ a + bs.length ≤ 4096
  · obtain ⟨m, hs, -, -, hm⟩ := storeBytes_inRange s a bs hr
    rw [hs] at h; cases h; exact hm hw
  · rw [storeBytes_outOfRange s a bs (by tauto) (by omega)] at h
    cases h

end Sys2Proof.Machine
end

