-- ==== Sys2Proof/Laws/Registers.lean ====
section
/-! SUPPORT. The laws of the register file: read over write for one register, for a block and for WriteRF. -/

namespace Sys2Proof.Machine

theorem reg_setReg (s : State) (x r : Reg) (b : Byte) : (s.setReg x b).reg r = if r = x then b else s.reg r := by
  simp only [State.reg, State.setReg, Vector.getElem_set, eq_comm (a := x.val), Fin.val_inj]

@[simp] theorem reg_setReg_self (s : State) (x : Reg) (b : Byte) : (s.setReg x b).reg x = b := by simp [reg_setReg]

theorem reg_setReg_of_ne (s : State) {x r : Reg} (b : Byte) (h : r ≠ x) : (s.setReg x b).reg r = s.reg r := by
  simp [reg_setReg, h]

/-- A block write sets the registers below the block's length and leaves the others alone. -/
theorem reg_setRegs (s : State) (bs : List Byte) (r : Reg) : (s.setRegs bs).reg r = (bs[r.val]?).getD (s.reg r) := by
  simp [State.reg, State.setRegs]

theorem reg_congr {s t : State} (h : t.v = s.v) (r : Reg) : t.reg r = s.reg r := by simp [State.reg, h]

/-- WriteRF changes the register file alone. -/
theorem writeRF_eq (s : State) (x : Reg) (r : Byte) (f : Bool) :
    s.writeRF x r f = { s with v := (s.writeRF x r f).v } := by
  unfold State.writeRF; split <;> rfl

/-- What every register holds after WriteRF (R140): for X below 15 the result in VX and the flag in VF; for X = 15 the
flag or the result, as VF_WRITE_ORDER says. -/
theorem reg_writeRF (s : State) (x y : Reg) (r : Byte) (f : Bool) :
    (s.writeRF x r f).reg y =
      if y = x ∧ y = VF then (match s.cfg.vfWriteOrder with | .flagLast => flagByte f | .resultLast => r)
      else if y = VF then flagByte f else if y = x then r else s.reg y := by
  unfold State.writeRF
  cases s.cfg.vfWriteOrder <;> simp only [reg_setReg] <;> by_cases h1 : y = x <;> by_cases h2 : y = VF <;>
    simp_all

end Sys2Proof.Machine
end

