-- ==== Sys2Proof/Laws/Cycle.lean ====
section
/-! SUPPORT. What the fetch, Execute and the Cycle can do, said once each: later proofs cite these lemmas instead of
unfolding exec and step. -/

namespace Sys2Proof.Machine

/-! ### Fetch -/

theorem fetch_misaligned (s : State) (h : s.cfg.pcAlign = .fault ∧ s.pc.toNat % 2 = 1) :
    s.fetch = .error (.fetchMisaligned, BitVec.ofNat 17 s.pc.toNat) := by
  unfold State.fetch; rw [if_pos h]

theorem fetch_outOfBounds (s : State) (h : ¬(s.cfg.pcAlign = .fault ∧ s.pc.toNat % 2 = 1)) (hb : 4095 ≤ s.pc.toNat) :
    s.fetch = .error (.fetchBounds, BitVec.ofNat 17 (if s.pc.toNat > 4095 then s.pc.toNat else s.pc.toNat + 1)) := by
  unfold State.fetch
  rw [if_neg h, readByte_of_ge s (show 4096 ≤ s.pc.toNat + 1 by omega)]
  split <;> simp_all

theorem fetch_inBounds (s : State) (h : ¬(s.cfg.pcAlign = .fault ∧ s.pc.toNat % 2 = 1)) (hb : s.pc.toNat < 4095) :
    s.fetch = .ok (wordOfBytes (Memory.get s.cfg.glyphRom s.mem s.pc.toNat)
      (Memory.get s.cfg.glyphRom s.mem (s.pc.toNat + 1))) := by
  unfold State.fetch
  rw [if_neg h, readByte_of_lt s (by omega), readByte_of_lt s (by omega)]

/-- A word is fetched only from an address whose two bytes exist. -/
theorem pc_lt_of_fetch_ok (s : State) {op : Word} (h : s.fetch = .ok op) : s.pc.toNat < 4095 := by
  by_cases h1 : s.cfg.pcAlign = .fault ∧ s.pc.toNat % 2 = 1
  · rw [fetch_misaligned s h1] at h; cases h
  · by_cases h2 : s.pc.toNat < 4095
    · exact h2
    · rw [fetch_outOfBounds s h1 (by omega)] at h; cases h

/-! ### Execute -/

theorem keepsControl_of_eq {s : State} (t : State)
    (h : t =
      { s with v := t.v, i := t.i, pc := t.pc, stack := t.stack, sp := t.sp, dt := t.dt, st := t.st, mem := t.mem,
               fb := t.fb }) : KeepsControl s t := by
  rw [h]; exact ⟨rfl, rfl, rfl, rfl, rfl, rfl, rfl, rfl, rfl, rfl, rfl, rfl, rfl⟩

theorem keepsControl_writeRF (s : State) (x : Reg) (r : Byte) (f : Bool) : KeepsControl s (s.writeRF x r f) := by
  rw [writeRF_eq]; exact ⟨rfl, rfl, rfl, rfl, rfl, rfl, rfl, rfl, rfl, rfl, rfl, rfl, rfl⟩

theorem keepsControl_skipIf (s : State) (c : Bool) : KeepsControl s (s.skipIf c) := by
  cases c <;> exact ⟨rfl, rfl, rfl, rfl, rfl, rfl, rfl, rfl, rfl, rfl, rfl, rfl, rfl⟩

theorem keepsControl_storeBytes {s t : State} {a : Nat} {bs : List Byte} (h : s.storeBytes a bs = some t) :
    KeepsControl s t := by
  rw [storeBytes_eq s t a bs h]; exact ⟨rfl, rfl, rfl, rfl, rfl, rfl, rfl, rfl, rfl, rfl, rfl, rfl, rfl⟩

/-- Every instruction answers a next state: either it takes a fault by the one shared operation, or it keeps all that
Execute never writes. -/
theorem exec_cases (i : Instr) (s : State) :
    ∃ t, exec i s = .next t ∧ ((∃ c n, t = s.raise c n) ∨ KeepsControl s t) := by
  have k : ∀ {t}, t = t → KeepsControl s t → ∃ u, Host.Outcome.next (φ := Fault) (ρ := Refusal) t = .next u ∧
      ((∃ c n, u = s.raise c n) ∨ KeepsControl s u) := fun {t} _ h => ⟨t, rfl, .inr h⟩
  have r : ∀ c n, ∃ u, Host.Outcome.next (φ := Fault) (ρ := Refusal) (s.raise c n) = .next u ∧
      ((∃ c n, u = s.raise c n) ∨ KeepsControl s u) := fun c n => ⟨_, rfl, .inl ⟨c, n, rfl⟩⟩
  have refl := @keepsControl_of_eq s
  cases i with
  | cls => exact k rfl (refl _ rfl)
  | ret =>
    simp only [exec, execRet]
    split
    · exact r _ _
    · exact k rfl (refl _ rfl)
  | jp nnn => exact k rfl (refl _ rfl)
  | call nnn =>
    simp only [exec, execCall]
    split
    · exact k rfl (refl _ rfl)
    · exact r _ _
  | seImm x nn => exact k rfl (keepsControl_skipIf _ _)
  | sneImm x nn => exact k rfl (keepsControl_skipIf _ _)
  | seReg x y => exact k rfl (keepsControl_skipIf _ _)
  | sneReg x y => exact k rfl (keepsControl_skipIf _ _)
  | ldImm x nn => exact k rfl (refl _ rfl)
  | addImm x nn => exact k rfl (refl _ rfl)
  | ldReg x y => exact k rfl (refl _ rfl)
  | or x y => exact k rfl (refl _ rfl)
  | and x y => exact k rfl (refl _ rfl)
  | xor x y => exact k rfl (refl _ rfl)
  | addReg x y => exact k rfl (keepsControl_writeRF _ _ _ _)
  | sub x y => exact k rfl (keepsControl_writeRF _ _ _ _)
  | shr x y => exact k rfl (keepsControl_writeRF _ _ _ _)
  | subn x y => exact k rfl (keepsControl_writeRF _ _ _ _)
  | shl x y => exact k rfl (keepsControl_writeRF _ _ _ _)
  | ldI nnn => exact k rfl (refl _ rfl)
  | jpV0 nnn => exact k rfl (refl _ rfl)
  | rnd x nn => exact k rfl (refl _ rfl)
  | drw x y n =>
    simp only [exec, execDrw]
    split
    · exact r _ _
    · exact k rfl (refl _ rfl)
  | skp x =>
    simp only [exec, execSkp]
    split
    · exact r _ _
    · exact k rfl (keepsControl_skipIf _ _)
  | sknp x =>
    simp only [exec, execSknp]
    split
    · exact r _ _
    · exact k rfl (keepsControl_skipIf _ _)
  | ldVxDt x => exact k rfl (refl _ rfl)
  | ldVxK x =>
    simp only [exec, execLdVxK]
    split <;> exact k rfl (refl _ rfl)
  | ldDt x => exact k rfl (refl _ rfl)
  | ldSt x => exact k rfl (refl _ rfl)
  | addI x => exact k rfl (refl _ rfl)
  | ldF x => exact k rfl (refl _ rfl)
  | ldB x =>
    simp only [exec, execLdB]
    split
    · exact k rfl (keepsControl_storeBytes (by assumption))
    · exact r _ _
  | ldMemVx x =>
    simp only [exec, execLdMemVx]
    split
    · exact k rfl (keepsControl_storeBytes (by assumption))
    · exact r _ _
  | ldVxMem x =>
    simp only [exec, execLdVxMem]
    split
    · exact k rfl (refl _ rfl)
    · exact r _ _

/-- Taking a fault through the one shared operation leaves what TakesFault says. -/
theorem takesFault_raise (s : State) (c : Fault) {n : BitVec 17} {k : Nat} (h : n.toNat = k) :
    TakesFault s (s.raise c n) c.code k := by
  subst h
  exact ⟨rfl, rfl, rfl, rfl, rfl, rfl, rfl, rfl, rfl, rfl, rfl, rfl, rfl, rfl, rfl, rfl, rfl, rfl, rfl, rfl, rfl, rfl⟩

theorem memFaultInfo_toNat (s : State) : s.memFaultInfo.toNat = max s.i.toNat 4096 := by
  have := s.i.isLt
  rw [State.memFaultInfo, BitVec.toNat_ofNat, Nat.mod_eq_of_lt (by omega)]

/-! ### The Cycle -/

/-- Everything a Cycle can do (40_cycle.md R109): nothing on a halted block; a fetch fault; a counted no-op; or the
decoded instruction, completed by the timer step unless it took a fault. -/
theorem step_cases (s : State) :
    ∃ t, step s = .next t ∧
      ((s.halted = true ∧ t = s.haltedStep) ∨
       (s.halted = false ∧ ∃ c n, s.beginCycle.fetch = .error (c, n) ∧ t = faultEntry s.beginCycle c s.pc 0 n) ∨
       (s.halted = false ∧ ∃ op, s.beginCycle.fetch = .ok op ∧ decodeWord op = .unmapped ∧
         t = ((s.beginCycle.enterExecute op).countUnmapped).finishCycle) ∨
       (s.halted = false ∧ ∃ op i r, s.beginCycle.fetch = .ok op ∧ decodeWord op = .instr i ∧
         exec i (s.beginCycle.enterExecute op) = .next r ∧ t = r.completeCycle)) := by
  by_cases hh : s.halted = true
  · exact ⟨s.haltedStep, by simp [step, hh], .inl ⟨hh, rfl⟩⟩
  · have hh' : s.halted = false := by simpa using hh
    cases hf : s.beginCycle.fetch with
    | error p => exact ⟨_, by simp [step, hh', hf], .inr (.inl ⟨hh', p.1, p.2, rfl, rfl⟩)⟩
    | ok op =>
      cases hd : decodeWord op with
      | unmapped => exact ⟨_, by simp [step, hh', hf, hd], .inr (.inr (.inl ⟨hh', op, rfl, hd, rfl⟩))⟩
      | instr i =>
        obtain ⟨r, hr, -⟩ := exec_cases i (s.beginCycle.enterExecute op)
        exact ⟨r.completeCycle, by simp [step, hh', hf, hd, hr],
          .inr (.inr (.inr ⟨hh', op, i, r, rfl, hd, hr, rfl⟩))⟩

/-- A fault of Execute, in terms of the state the Cycle started in: only the fault record, UNK_STROBE, the latch and
LOAD's window differ (60_exceptions.md R221). -/
theorem raise_enterExecute (s : State) (w : Word) (c : Fault) (n : BitVec 17) :
    (s.beginCycle.enterExecute w).raise c n =
      { s with halted := true, faultCause := c.code, faultPc := s.pc, faultOpcode := w, faultInfo := n,
               unkStrobe := false, op := 0, loadOpen := false } := by
  simp [State.raise, faultEntry, State.enterExecute, State.beginCycle]

/-- A running block that fetches a word of an instruction runs it and completes the Cycle. -/
theorem step_of_instr {s r : State} {op : Word} {i : Instr} (hh : s.halted = false) (hf : s.fetch = .ok op)
    (hd : decodeWord op = .instr i) (he : exec i (s.beginCycle.enterExecute op) = .next r) :
    step s = .next r.completeCycle := by
  have hf' : s.beginCycle.fetch = .ok op := hf
  rw [step, if_neg (by simp [hh]), hf']
  simp only [hd, he]

/-- A Cycle of a running block, with the outcomes of Execute told apart: a fetch fault; a counted no-op; an
instruction that takes a fault, where the Cycle ends; an instruction that does not, after which the timers step. -/
theorem step_running_cases {s t : State} (hh : s.halted = false) (h : step s = .next t) :
    (∃ c n, s.fetch = .error (c, n) ∧ t = faultEntry s.beginCycle c s.pc 0 n) ∨
    (∃ op, s.fetch = .ok op ∧ decodeWord op = .unmapped ∧
      t = ((s.beginCycle.enterExecute op).countUnmapped).finishCycle) ∨
    (∃ op i r, s.fetch = .ok op ∧ decodeWord op = .instr i ∧ exec i (s.beginCycle.enterExecute op) = .next r ∧
      ((∃ c n, r = (s.beginCycle.enterExecute op).raise c n ∧ t = r) ∨
       (KeepsControl (s.beginCycle.enterExecute op) r ∧ t = ({ r with unkStrobe := false } : State).finishCycle))) := by
  obtain ⟨t', h', hc⟩ := step_cases s
  rw [h] at h'; cases h'
  rcases hc with ⟨h1, -⟩ | ⟨-, c, n, hf, rfl⟩ | ⟨-, op, hf, hd, rfl⟩ | ⟨-, op, i, r, hf, hd, he, rfl⟩
  · rw [hh] at h1; cases h1
  · exact .inl ⟨c, n, hf, rfl⟩
  · exact .inr (.inl ⟨op, hf, hd, rfl⟩)
  · obtain ⟨r', hr, hk⟩ := exec_cases i (s.beginCycle.enterExecute op)
    rw [he] at hr; cases hr
    refine .inr (.inr ⟨op, i, r, hf, hd, he, ?_⟩)
    rcases hk with ⟨c, n, rfl⟩ | hk
    · exact .inl ⟨c, n, rfl, rfl⟩
    · have hr : r.halted = false := hk.1.trans hh
      exact .inr ⟨hk, by simp [State.completeCycle, hr]⟩

end Sys2Proof.Machine
end

