-- ==== Sys2Proof/Laws/Decode.lean ====
section
/-! SUPPORT. The fields of packed words, from which decode and encode are compared. -/

namespace Sys2Proof

/-- A field of a concatenation that lies in its low part. -/
theorem extract_append_low {m n k : Nat} (a : BitVec m) (b : BitVec n) (lo : Nat) (h : lo + k ≤ n) :
    (a ++ b).extractLsb' lo k = b.extractLsb' lo k := by
  apply BitVec.eq_of_getLsbD_eq; intro i hi
  simp [BitVec.getLsbD_append, hi, show lo + i < n by omega]

/-- A field of a concatenation that lies in its high part. -/
theorem extract_append_high {m n k : Nat} (a : BitVec m) (b : BitVec n) (lo : Nat) (h : n ≤ lo) :
    (a ++ b).extractLsb' lo k = a.extractLsb' (lo - n) k := by
  apply BitVec.eq_of_getLsbD_eq; intro i hi
  simp [BitVec.getLsbD_append, hi, show ¬(lo + i < n) by omega,
    show lo + i - n = lo - n + i by omega]

@[simp] theorem fieldP_packNNN (p : BitVec 4) (nnn : Addr12) : fieldP (packNNN p nnn) = p := by
  unfold fieldP packNNN
  rw [extract_append_high p nnn 12 (by omega)]; simp

@[simp] theorem fieldNNN_packNNN (p : BitVec 4) (nnn : Addr12) : fieldNNN (packNNN p nnn) = nnn := by
  unfold fieldNNN packNNN
  rw [extract_append_low p nnn 0 (by omega)]; simp

@[simp] theorem fieldP_packXNN (p : BitVec 4) (x : Reg) (nn : Byte) : fieldP (packXNN p x nn) = p := by
  unfold fieldP packXNN
  rw [extract_append_high _ nn 12 (by omega), extract_append_high _ _ _ (by omega)]; simp

@[simp] theorem fieldX_packXNN (p : BitVec 4) (x : Reg) (nn : Byte) : fieldX (packXNN p x nn) = x := by
  unfold fieldX packXNN
  rw [extract_append_high _ nn 8 (by omega), extract_append_low _ _ _ (by omega)]; simp

@[simp] theorem fieldNN_packXNN (p : BitVec 4) (x : Reg) (nn : Byte) : fieldNN (packXNN p x nn) = nn := by
  unfold fieldNN packXNN
  rw [extract_append_low _ nn 0 (by omega)]; simp

@[simp] theorem fieldLow_packXNN (p : BitVec 4) (x : Reg) (nn : Byte) :
    fieldLow (packXNN p x nn) = nn.extractLsb' 0 4 := by
  unfold fieldLow packXNN
  rw [extract_append_low _ nn 0 (by omega)]

@[simp] theorem fieldP_packXYN (p : BitVec 4) (x y : Reg) (n : BitVec 4) : fieldP (packXYN p x y n) = p := by
  unfold fieldP packXYN
  rw [extract_append_high _ n 12 (by omega), extract_append_high _ _ _ (by omega),
    extract_append_high _ _ _ (by omega)]; simp

@[simp] theorem fieldX_packXYN (p : BitVec 4) (x y : Reg) (n : BitVec 4) : fieldX (packXYN p x y n) = x := by
  unfold fieldX packXYN
  rw [extract_append_high _ n 8 (by omega), extract_append_high _ _ _ (by omega),
    extract_append_low _ _ _ (by omega)]; simp

@[simp] theorem fieldY_packXYN (p : BitVec 4) (x y : Reg) (n : BitVec 4) : fieldY (packXYN p x y n) = y := by
  unfold fieldY packXYN
  rw [extract_append_high _ n 4 (by omega), extract_append_low _ _ _ (by omega)]; simp

@[simp] theorem fieldLow_packXYN (p : BitVec 4) (x y : Reg) (n : BitVec 4) : fieldLow (packXYN p x y n) = n := by
  unfold fieldLow packXYN
  rw [extract_append_low _ n 0 (by omega)]; simp

@[simp] theorem fieldN_packXYN (p : BitVec 4) (x y n : Reg) :
    fieldN (packXYN p x y (BitVec.ofFin n)) = n := by
  unfold fieldN packXYN
  rw [extract_append_low _ _ 0 (by omega)]; simp

/-- A field that a mask keeps whole is read off the masked word. -/
theorem extract_of_and {w m v : Word} {lo k : Nat} (h : w &&& m = v) (hm : m.extractLsb' lo k = BitVec.allOnes k) :
    w.extractLsb' lo k = v.extractLsb' lo k := by
  rw [← h, BitVec.extractLsb'_and, hm, BitVec.and_allOnes]

/-- The primary key of a word that fits a mask which keeps it. -/
theorem fieldP_of_and {w m v : Word} (h : w &&& m = v) (hm : fieldP m = 0xF#4) : fieldP w = fieldP v :=
  extract_of_and h hm

/-- The low nibble of a word that fits a mask which keeps it. -/
theorem fieldLow_of_and {w m v : Word} (h : w &&& m = v) (hm : fieldLow m = 0xF#4) : fieldLow w = fieldLow v :=
  extract_of_and h hm

/-- The low byte of a word that fits a mask which keeps it. -/
theorem fieldNN_of_and {w m v : Word} (h : w &&& m = v) (hm : fieldNN m = 0xFF#8) : fieldNN w = fieldNN v :=
  extract_of_and h hm

/-- The two bytes of a word give the word back (20_memory.md R64). -/
@[simp] theorem wordOfBytes_bytes (w : Word) : wordOfBytes (highByte w) (lowByte w) = w := by
  apply BitVec.eq_of_getLsbD_eq; intro i hi
  unfold wordOfBytes highByte lowByte
  rw [BitVec.getLsbD_append]
  by_cases h : i < 8
  · simp [h]
  · simp [h, show 8 + (i - 8) = i by omega, show i - 8 < 8 by omega]

end Sys2Proof
end

