-- ==== Sys2Proof/Laws/Exec.lean ====
section
/-! SUPPORT. Which instructions can write which part of the state, all in one case analysis, and the frames of the
shared updates. -/

namespace Sys2Proof.Machine

/-- Who writes what in Execute: the stack, I, the framebuffer, memory and each timer have the writers the spec names
(10_state.md R25, R26, R28, R30; 20_memory.md R60), and nothing writes the parameters. -/
theorem exec_writers (i : Instr) (s r : State) (he : exec i s = .next r) :
    ((∀ n, i ≠ .call n) → i ≠ .ret → r.sp = s.sp ∧ r.stack = s.stack) ∧
    ((∀ n, i ≠ .ldI n) → (∀ x, i ≠ .addI x) → (∀ x, i ≠ .ldF x) → r.i = s.i) ∧
    (i ≠ .cls → (∀ x y n, i ≠ .drw x y n) → r.fb = s.fb) ∧
    ((∀ x, i ≠ .ldB x) → (∀ x, i ≠ .ldMemVx x) → r.mem = s.mem) ∧
    ((∀ x, i ≠ .ldDt x) → r.dt = s.dt) ∧ ((∀ x, i ≠ .ldSt x) → r.st = s.st) ∧ r.cfg = s.cfg := by
  have same : ∀ t : State, t.sp = s.sp → t.stack = s.stack → t.i = s.i → t.fb = s.fb → t.mem = s.mem → t.dt = s.dt →
      t.st = s.st → t.cfg = s.cfg →
      ((∀ n, i ≠ .call n) → i ≠ .ret → t.sp = s.sp ∧ t.stack = s.stack) ∧
      ((∀ n, i ≠ .ldI n) → (∀ x, i ≠ .addI x) → (∀ x, i ≠ .ldF x) → t.i = s.i) ∧
      (i ≠ .cls → (∀ x y n, i ≠ .drw x y n) → t.fb = s.fb) ∧
      ((∀ x, i ≠ .ldB x) → (∀ x, i ≠ .ldMemVx x) → t.mem = s.mem) ∧
      ((∀ x, i ≠ .ldDt x) → t.dt = s.dt) ∧ ((∀ x, i ≠ .ldSt x) → t.st = s.st) ∧ t.cfg = s.cfg :=
    fun t h1 h2 h3 h4 h5 h6 h7 h8 => ⟨fun _ _ => ⟨h1, h2⟩, fun _ _ _ => h3, fun _ _ => h4, fun _ _ => h5, fun _ => h6,
      fun _ => h7, h8⟩
  have rs : ∀ c n, _ := fun c n => same (s.raise c n) rfl rfl rfl rfl rfl rfl rfl rfl
  have sk : ∀ c, _ := fun c => same (s.skipIf c) (by cases c <;> rfl) (by cases c <;> rfl) (by cases c <;> rfl)
    (by cases c <;> rfl) (by cases c <;> rfl) (by cases c <;> rfl) (by cases c <;> rfl) (by cases c <;> rfl)
  have wr : ∀ x b f, _ := fun x b f => same (s.writeRF x b f) (by rw [writeRF_eq]) (by rw [writeRF_eq])
    (by rw [writeRF_eq]) (by rw [writeRF_eq]) (by rw [writeRF_eq]) (by rw [writeRF_eq]) (by rw [writeRF_eq])
    (by rw [writeRF_eq])
  cases i with
  | seImm | sneImm | seReg | sneReg => cases he; exact sk _
  | addReg | sub | subn | shr | shl => cases he; exact wr _ _ _
  | ldReg | ldImm | addImm | or | and | xor | rnd | ldVxDt | jp | jpV0 =>
    cases he; refine same _ ?_ ?_ ?_ ?_ ?_ ?_ ?_ ?_ <;> rfl
  | cls | ldI | addI | ldF | ldDt | ldSt => cases he; simp
  | call n =>
    simp only [exec, execCall] at he
    split at he <;> cases he
    · simp
    · exact rs _ _
  | ret =>
    simp only [exec, execRet] at he
    split at he <;> cases he
    · exact rs _ _
    · simp
  | drw x y n =>
    simp only [exec, execDrw] at he
    split at he <;> cases he
    · exact rs _ _
    · simp
  | skp x =>
    simp only [exec, execSkp] at he
    split at he <;> cases he
    · exact rs _ _
    · exact sk _
  | sknp x =>
    simp only [exec, execSknp] at he
    split at he <;> cases he
    · exact rs _ _
    · exact sk _
  | ldVxK x =>
    simp only [exec, execLdVxK] at he
    split at he <;> cases he <;> refine same _ ?_ ?_ ?_ ?_ ?_ ?_ ?_ ?_ <;> rfl
  | ldB x =>
    simp only [exec, execLdB] at he
    split at he <;> cases he
    · rename_i t ht; rw [storeBytes_eq _ _ _ _ ht]; simp
    · exact rs _ _
  | ldMemVx x =>
    simp only [exec, execLdMemVx] at he
    split at he <;> cases he
    · rename_i t ht; rw [storeBytes_eq _ _ _ _ ht]; simp
    · exact rs _ _
  | ldVxMem x =>
    simp only [exec, execLdVxMem] at he
    generalize s.loadBytes _ _ = o at he
    cases o with
    | none => cases he; exact rs _ _
    | some bs => obtain rfl := Host.Outcome.next.inj he; refine same _ ?_ ?_ ?_ ?_ ?_ ?_ ?_ ?_ <;> simp

/-! ### Frames of the shared updates -/

theorem frame_pc (s : State) (pc : Word) : Frame {} s { s with pc := pc } :=
  ⟨fun _ _ => rfl, fun _ => rfl, fun _ => ⟨rfl, rfl⟩, fun _ => rfl, fun _ => rfl, fun _ _ _ => rfl,
    fun a _ => readByte_congr rfl rfl a, keepsControl_of_eq _ rfl⟩

theorem frame_skipIf (s : State) (c : Bool) : Frame {} s (s.skipIf c) := by
  cases c
  · exact frame_pc s s.pc
  · exact frame_pc s _

theorem frame_index (s : State) (w : Word) : Frame { index := true } s { s with i := w } :=
  ⟨fun _ _ => rfl, by simp, fun _ => ⟨rfl, rfl⟩, fun _ => rfl, fun _ => rfl, fun _ _ _ => rfl,
    fun a _ => readByte_congr rfl rfl a, keepsControl_of_eq _ rfl⟩

theorem frame_setReg (s : State) (x : Reg) (b : Byte) : Frame { regs := [x] } s (s.setReg x b) :=
  ⟨fun r h => reg_setReg_of_ne s b (by simpa using h), fun _ => rfl, fun _ => ⟨rfl, rfl⟩, fun _ => rfl, fun _ => rfl,
    fun _ _ _ => rfl, fun a _ => readByte_congr rfl rfl a, keepsControl_of_eq _ rfl⟩

/-- A store in range leaves every byte outside it, and everything else. -/
theorem frame_storeBytes {s t : State} {a : Nat} {bs : List Byte} (h : s.storeBytes a bs = some t) :
    Frame { base := a, count := bs.length } s t := by
  have hk := keepsControl_storeBytes h
  have hout : ∀ c, ¬(a ≤ c ∧ c < a + bs.length) → t.readByte c = s.readByte c := by
    intro c hc
    by_cases hr : bs = [] ∨ a + bs.length ≤ 4096
    · obtain ⟨m, hs, -, h2, -⟩ := storeBytes_inRange s a bs hr
      rw [hs] at h; cases h
      by_cases h4 : c < 4096
      · rw [readByte_of_lt _ h4, readByte_of_lt _ h4]; simpa using h2 c hc
      · rw [readByte_of_ge _ (by omega), readByte_of_ge _ (by omega)]
    · rw [storeBytes_outOfRange s a bs (by tauto) (by omega)] at h
      cases h
  have e := storeBytes_eq s t a bs h
  exact ⟨fun r _ => by rw [e]; rfl, fun _ => by rw [e], fun _ => by rw [e]; exact ⟨rfl, rfl⟩, fun _ => by rw [e],
    fun _ => by rw [e], fun _ _ _ => by rw [e]; rfl, hout, hk⟩

end Sys2Proof.Machine
end

