-- ==== Sys2Proof/Laws/Framebuffer.lean ====
section
/-! SUPPORT. The framebuffer: one cell after a toggle, and the closed form of the draw loop. -/

namespace Sys2Proof.Machine

theorem cell_toggle (fb : Vector (BitVec 64) 32) (x y x' y' : Nat) (hx : x < 64) (hy : y < 32) :
    Fb.cell (Fb.toggle fb x y) x' y' = (Fb.cell fb x' y' ^^ (decide (x' = x) && decide (y' = y))) := by
  unfold Fb.cell Fb.toggle
  by_cases hy' : y' < 32
  · simp only [hy, hy', dif_pos, Vector.getElem_set]
    by_cases he : y = y'
    · subst he
      simp only [if_pos, BitVec.getLsbD_xor, BitVec.getLsbD_twoPow, decide_true, Bool.and_true, hx,
        Bool.true_and]
      congr 1
      simp [eq_comm]
    · simp [he, eq_comm (a := y') (b := y)]
  · have : y' ≠ y := by omega
    simp [hy', this]

theorem cell_of_x_ge (fb : Vector (BitVec 64) 32) {x : Nat} (y : Nat) (h : 64 ≤ x) : Fb.cell fb x y = false := by
  unfold Fb.cell; split
  · exact BitVec.getLsbD_of_ge _ _ h
  · rfl

theorem cell_of_y_ge (fb : Vector (BitVec 64) 32) (x : Nat) {y : Nat} (h : 32 ≤ y) : Fb.cell fb x y = false := by
  unfold Fb.cell; rw [dif_neg (by omega)]

@[simp] theorem cell_replicate (x y : Nat) : Fb.cell (Vector.replicate 32 0#64) x y = false := by
  unfold Fb.cell; split <;> simp

/-- Two framebuffers with the same cells are the same data. -/
theorem fb_ext {fb fb' : Vector (BitVec 64) 32} (h : ∀ x y, x < 64 → y < 32 → Fb.cell fb x y = Fb.cell fb' x y) :
    fb = fb' := by
  ext y hy x hx
  have := h x y hx hy
  simpa [Fb.cell, hy, BitVec.getLsbD_eq_getElem hx] using this

/-! ### The draw loop in closed form (44_framebuffer.md R180) -/

/-- Whether a sprite row drawn from column x0 has a set pixel at column x. -/
def rowBit (x0 : Nat) (b : Byte) (x : Nat) : Bool :=
  decide ((x + 64 - x0) % 64 < 8) && b.getLsbD (7 - (x + 64 - x0) % 64)

/-- Whether the rows drawn from row y0 downward have a set pixel at (x, y). -/
def rowsBit (x0 : Nat) : Nat → List Byte → Nat → Nat → Bool
  | _, [], _, _ => false
  | y0, b :: bs, x, y => (decide (y = y0 % 32) && rowBit x0 b x) || rowsBit x0 (y0 + 1) bs x y

/-- The columns of one row, whichever of them are drawn: every cell of the row is XORed with the drawn pixels, and a
collision is recorded iff a drawn pixel was on. -/
theorem drawColumns (x0 y : Nat) (b : Byte) (hy : y < 32) (cs : List Nat) (hnd : cs.Nodup)
    (hcs : ∀ c ∈ cs, c < 8) (p : Vector (BitVec 64) 32 × Bool) :
    (∀ x' y', Fb.cell (cs.foldl (Fb.drawPixel x0 y b) p).1 x' y' =
      (Fb.cell p.1 x' y' ^^ (decide (y' = y) && cs.any fun c => b.getLsbD (7 - c) && decide (x' = (x0 + c) % 64)))) ∧
    (cs.foldl (Fb.drawPixel x0 y b) p).2 =
      (p.2 || cs.any fun c => b.getLsbD (7 - c) && Fb.cell p.1 ((x0 + c) % 64) y) := by
  induction cs generalizing p with
  | nil => simp
  | cons c cs ih =>
    have hc : c < 8 := hcs c (by simp)
    have hnotin : c ∉ cs := (List.nodup_cons.mp hnd).1
    have hne : ∀ c' ∈ cs, (x0 + c') % 64 ≠ (x0 + c) % 64 := by
      intro c' hc' h
      have : c' < 8 := hcs c' (by simp [hc'])
      exact hnotin ((show c' = c by omega) ▸ hc')
    obtain ⟨ih1, ih2⟩ := ih (List.nodup_cons.mp hnd).2 (fun c' h => hcs c' (by simp [h])) (Fb.drawPixel x0 y b p c)
    have hlt : (x0 + c) % 64 < 64 := Nat.mod_lt _ (by omega)
    have hcell : ∀ x' y', Fb.cell (Fb.drawPixel x0 y b p c).1 x' y' =
        (Fb.cell p.1 x' y' ^^ (decide (y' = y) && (b.getLsbD (7 - c) && decide (x' = (x0 + c) % 64)))) := by
      intro x' y'
      unfold Fb.drawPixel
      split
      · rename_i hb
        rw [cell_toggle _ _ _ _ _ hlt hy, hb, Bool.true_and, Bool.and_comm]
      · rename_i hb; simp [hb]
    refine ⟨fun x' y' => ?_, ?_⟩
    · rw [List.foldl_cons, ih1, hcell, List.any_cons, Bool.xor_assoc]
      congr 1
      by_cases hP : x' = (x0 + c) % 64
      · have : (cs.any fun c => b.getLsbD (7 - c) && decide (x' = (x0 + c) % 64)) = false := by
          rw [List.any_eq_false]; intro c' h'
          simp [show x' ≠ (x0 + c') % 64 from fun h => hne c' h' (h ▸ hP ▸ rfl)]
        rw [this]; simp
      · simp [hP]
    · rw [List.foldl_cons, ih2, List.any_cons]
      have hany : (cs.any fun c' => b.getLsbD (7 - c') && Fb.cell (Fb.drawPixel x0 y b p c).1 ((x0 + c') % 64) y) =
          (cs.any fun c' => b.getLsbD (7 - c') && Fb.cell p.1 ((x0 + c') % 64) y) := by
        rw [Bool.eq_iff_iff, List.any_eq_true, List.any_eq_true]
        refine exists_congr fun c' => and_congr_right fun h' => ?_
        rw [hcell]; simp [hne c' h']
      rw [hany]
      unfold Fb.drawPixel
      split
      · rename_i hb; simp [hb, Bool.or_assoc]
      · rename_i hb; simp [hb]

theorem drawRow_spec (x0 y : Nat) (b : Byte) (hx : x0 < 64) (hy : y < 32) (p : Vector (BitVec 64) 32 × Bool) :
    (∀ x' y', x' < 64 →
      Fb.cell (Fb.drawRow x0 y b p).1 x' y' = (Fb.cell p.1 x' y' ^^ (decide (y' = y) && rowBit x0 b x'))) ∧
    ((Fb.drawRow x0 y b p).2 = true ↔ p.2 = true ∨ ∃ x, x < 64 ∧ rowBit x0 b x = true ∧ Fb.cell p.1 x y = true) := by
  obtain ⟨h1, h2⟩ := drawColumns x0 y b hy [0, 1, 2, 3, 4, 5, 6, 7] (by decide) (by simp) p
  have hrow : ∀ x', x' < 64 → rowBit x0 b x' =
      ([0, 1, 2, 3, 4, 5, 6, 7].any fun c => b.getLsbD (7 - c) && decide (x' = (x0 + c) % 64)) := by
    intro x' hx'
    rw [Bool.eq_iff_iff, List.any_eq_true]
    simp only [rowBit, Bool.and_eq_true, decide_eq_true_eq]
    constructor
    · rintro ⟨hc, hb⟩
      refine ⟨(x' + 64 - x0) % 64, ?_, hb, by omega⟩
      have : (x' + 64 - x0) % 64 ∈ List.range 8 := by simpa using hc
      simpa [List.range, List.range.loop] using this
    · rintro ⟨c, hc, hb, he⟩
      have hc8 : c < 8 := by
        have : c ∈ List.range 8 := by simpa [List.range, List.range.loop] using hc
        simpa using this
      have : (x' + 64 - x0) % 64 = c := by omega
      exact ⟨by omega, by rw [this]; exact hb⟩
  refine ⟨fun x' y' hx' => ?_, ?_⟩
  · unfold Fb.drawRow; rw [h1, hrow x' hx']
  · unfold Fb.drawRow
    rw [h2, Bool.or_eq_true]
    refine or_congr_right ?_
    rw [List.any_eq_true]
    constructor
    · rintro ⟨c, hc, h⟩
      simp only [Bool.and_eq_true] at h
      refine ⟨(x0 + c) % 64, Nat.mod_lt _ (by omega), ?_, h.2⟩
      rw [hrow _ (Nat.mod_lt _ (by omega)), List.any_eq_true]
      exact ⟨c, hc, by simp [h.1]⟩
    · rintro ⟨x, hx', hb, hcell⟩
      rw [hrow x hx', List.any_eq_true] at hb
      obtain ⟨c, hc, h⟩ := hb
      simp only [Bool.and_eq_true, decide_eq_true_eq] at h
      exact ⟨c, hc, by rw [Bool.and_eq_true, ← h.2]; exact ⟨h.1, hcell⟩⟩

theorem rowsBit_of_row (x0 y0 : Nat) (bs : List Byte) (x y : Nat) (hy : y = y0 % 32) (hlen : bs.length < 32) :
    rowsBit x0 (y0 + 1) bs x y = false := by
  suffices H : ∀ k, 0 < k → k + bs.length ≤ 32 → rowsBit x0 (y0 + k) bs x y = false from H 1 (by omega) (by omega)
  intro k hk hle
  induction bs generalizing k with
  | nil => rfl
  | cons b bs ih =>
    simp only [List.length_cons] at hle hlen
    have hne : y ≠ (y0 + k) % 32 := by omega
    simp only [rowsBit, hne, decide_false, Bool.false_and, Bool.false_or]
    exact ih (by omega) (k + 1) (by omega) (by omega)

/-- Everything the draw loop does: cells are XORed with the sprite's pixels, and the collision flag is set iff some
pixel of the sprite was already on. -/
theorem drawRows_spec (x0 y0 : Nat) (bs : List Byte) (hx : x0 < 64) (hlen : bs.length ≤ 32)
    (p : Vector (BitVec 64) 32 × Bool) :
    (∀ x y, x < 64 → y < 32 → Fb.cell (Fb.drawRows x0 y0 bs p).1 x y = (Fb.cell p.1 x y ^^ rowsBit x0 y0 bs x y)) ∧
    ((Fb.drawRows x0 y0 bs p).2 = true ↔
      p.2 = true ∨ ∃ x y, x < 64 ∧ y < 32 ∧ rowsBit x0 y0 bs x y = true ∧ Fb.cell p.1 x y = true) := by
  induction bs generalizing y0 p with
  | nil => simp [Fb.drawRows, rowsBit]
  | cons b bs ih =>
    simp only [List.length_cons] at hlen
    have hy : y0 % 32 < 32 := Nat.mod_lt _ (by omega)
    obtain ⟨r1, r2⟩ := drawRow_spec x0 (y0 % 32) b hx hy p
    obtain ⟨i1, i2⟩ := ih (y0 + 1) (by omega) (Fb.drawRow x0 (y0 % 32) b p)
    refine ⟨fun x y hx' hy' => ?_, ?_⟩
    · rw [Fb.drawRows, i1 x y hx' hy', r1 x y hx', rowsBit, Bool.xor_assoc]
      congr 1
      by_cases he : y = y0 % 32
      · rw [rowsBit_of_row x0 y0 bs x y he (by omega)]; simp
      · simp [he]
    · rw [Fb.drawRows, i2, r2, or_assoc]
      refine or_congr_right ?_
      constructor
      · rintro (⟨x, hx', hb, hc⟩ | ⟨x, y, hx', hy', hb, hc⟩)
        · exact ⟨x, y0 % 32, hx', hy, by simp [rowsBit, hb], hc⟩
        · refine ⟨x, y, hx', hy', by simp [rowsBit, hb], ?_⟩
          rw [r1 x y hx'] at hc
          by_cases he : y = y0 % 32
          · rw [rowsBit_of_row x0 y0 bs x y he (by omega)] at hb; cases hb
          · simpa [he] using hc
      · rintro ⟨x, y, hx', hy', hb, hc⟩
        by_cases he : y = y0 % 32
        · left
          rw [rowsBit, rowsBit_of_row x0 y0 bs x y he (by omega)] at hb
          exact ⟨x, hx', by simpa [he] using hb, he ▸ hc⟩
        · right
          refine ⟨x, y, hx', hy', by simpa [rowsBit, he] using hb, ?_⟩
          rw [r1 x y hx']; simp [he, hc]

/-- The pixel of the sprite at (x, y) read off directly: row (y − y0) mod 32 of the sprite, if it has that row, and
column (x − x0) mod 64, if it is one of the eight. -/
theorem rowsBit_eq (x0 y0 : Nat) (bs : List Byte) (x y : Nat) (hlen : bs.length < 32) (hy : y < 32) :
    rowsBit x0 y0 bs x y = (bs[(y + 32 - y0 % 32) % 32]?).elim false fun b => rowBit x0 b x := by
  induction bs generalizing y0 with
  | nil => simp [rowsBit]
  | cons b bs ih =>
    simp only [List.length_cons] at hlen
    by_cases he : y = y0 % 32
    · rw [rowsBit, rowsBit_of_row x0 y0 bs x y he (by omega)]
      simp [← he]
    · rw [rowsBit, ih (y0 + 1) (by omega)]
      have hr : (y + 32 - y0 % 32) % 32 = (y + 32 - (y0 + 1) % 32) % 32 + 1 := by omega
      rw [hr]; simp [he]

end Sys2Proof.Machine
end

