-- ==== Sys2Proof/Laws/PerInstr.lean ====
section
/-! SUPPORT. Statements made instruction by instruction. -/

namespace Sys2Proof.Laws

/-- EncodeMatchesRow: an instruction's word fits the mask and match of its row of spec/opcode_table.json, whatever its
operands (30_encoding.md R91). -/
def EncodeMatchesRow.Statement (i : Instr) : Prop := encode i &&& i.maskMatch.1 = i.maskMatch.2

theorem row_packNNN (p : BitVec 4) (nnn : Addr12) : packNNN p nnn &&& 0xF000#16 = p ++ 0#12 := by
  apply BitVec.eq_of_getLsbD_eq; intro i hi
  simp only [packNNN, BitVec.getLsbD_and, BitVec.getLsbD_append]
  interval_cases i <;> simp

theorem row_packXNN (p : BitVec 4) (x : Reg) (nn : Byte) : packXNN p x nn &&& 0xF000#16 = p ++ 0#12 := by
  apply BitVec.eq_of_getLsbD_eq; intro i hi
  simp only [packXNN, BitVec.getLsbD_and, BitVec.getLsbD_append]
  interval_cases i <;> simp

theorem row_packXNN_low (p : BitVec 4) (x : Reg) (nn : Byte) :
    packXNN p x nn &&& 0xF00F#16 = p ++ 0#8 ++ nn.extractLsb' 0 4 := by
  apply BitVec.eq_of_getLsbD_eq; intro i hi
  simp only [packXNN, BitVec.getLsbD_and, BitVec.getLsbD_append]
  interval_cases i <;> simp

theorem row_packXNN_byte (p : BitVec 4) (x : Reg) (nn : Byte) : packXNN p x nn &&& 0xF0FF#16 = p ++ 0#4 ++ nn := by
  apply BitVec.eq_of_getLsbD_eq; intro i hi
  simp only [packXNN, BitVec.getLsbD_and, BitVec.getLsbD_append]
  interval_cases i <;> simp

theorem row_packXYN (p : BitVec 4) (x y : Reg) (n : BitVec 4) : packXYN p x y n &&& 0xF000#16 = p ++ 0#12 := by
  apply BitVec.eq_of_getLsbD_eq; intro i hi
  simp only [packXYN, BitVec.getLsbD_and, BitVec.getLsbD_append]
  interval_cases i <;> simp

theorem row_packXYN_low (p : BitVec 4) (x y : Reg) (n : BitVec 4) :
    packXYN p x y n &&& 0xF00F#16 = p ++ 0#8 ++ n := by
  apply BitVec.eq_of_getLsbD_eq; intro i hi
  simp only [packXYN, BitVec.getLsbD_and, BitVec.getLsbD_append]
  interval_cases i <;> simp

theorem EncodeMatchesRow.cls : EncodeMatchesRow.Statement (.cls) := rfl
theorem EncodeMatchesRow.ret : EncodeMatchesRow.Statement (.ret) := rfl
theorem EncodeMatchesRow.jp (nnn : Addr12) : EncodeMatchesRow.Statement (.jp nnn) := row_packNNN _ _
theorem EncodeMatchesRow.call (nnn : Addr12) : EncodeMatchesRow.Statement (.call nnn) := row_packNNN _ _
theorem EncodeMatchesRow.ldI (nnn : Addr12) : EncodeMatchesRow.Statement (.ldI nnn) := row_packNNN _ _
theorem EncodeMatchesRow.jpV0 (nnn : Addr12) : EncodeMatchesRow.Statement (.jpV0 nnn) := row_packNNN _ _
theorem EncodeMatchesRow.seImm (x : Reg) (nn : Byte) : EncodeMatchesRow.Statement (.seImm x nn) := row_packXNN _ _ _
theorem EncodeMatchesRow.sneImm (x : Reg) (nn : Byte) : EncodeMatchesRow.Statement (.sneImm x nn) := row_packXNN _ _ _
theorem EncodeMatchesRow.ldImm (x : Reg) (nn : Byte) : EncodeMatchesRow.Statement (.ldImm x nn) := row_packXNN _ _ _
theorem EncodeMatchesRow.addImm (x : Reg) (nn : Byte) : EncodeMatchesRow.Statement (.addImm x nn) := row_packXNN _ _ _
theorem EncodeMatchesRow.rnd (x : Reg) (nn : Byte) : EncodeMatchesRow.Statement (.rnd x nn) := row_packXNN _ _ _
theorem EncodeMatchesRow.seReg (x y : Reg) : EncodeMatchesRow.Statement (.seReg x y) := row_packXYN _ _ _ _
theorem EncodeMatchesRow.sneReg (x y : Reg) : EncodeMatchesRow.Statement (.sneReg x y) := row_packXYN _ _ _ _
theorem EncodeMatchesRow.ldReg (x y : Reg) : EncodeMatchesRow.Statement (.ldReg x y) := row_packXYN_low _ _ _ _
theorem EncodeMatchesRow.or (x y : Reg) : EncodeMatchesRow.Statement (.or x y) := row_packXYN_low _ _ _ _
theorem EncodeMatchesRow.and (x y : Reg) : EncodeMatchesRow.Statement (.and x y) := row_packXYN_low _ _ _ _
theorem EncodeMatchesRow.xor (x y : Reg) : EncodeMatchesRow.Statement (.xor x y) := row_packXYN_low _ _ _ _
theorem EncodeMatchesRow.addReg (x y : Reg) : EncodeMatchesRow.Statement (.addReg x y) := row_packXYN_low _ _ _ _
theorem EncodeMatchesRow.sub (x y : Reg) : EncodeMatchesRow.Statement (.sub x y) := row_packXYN_low _ _ _ _
theorem EncodeMatchesRow.shr (x y : Reg) : EncodeMatchesRow.Statement (.shr x y) := row_packXYN_low _ _ _ _
theorem EncodeMatchesRow.subn (x y : Reg) : EncodeMatchesRow.Statement (.subn x y) := row_packXYN_low _ _ _ _
theorem EncodeMatchesRow.shl (x y : Reg) : EncodeMatchesRow.Statement (.shl x y) := row_packXYN_low _ _ _ _
theorem EncodeMatchesRow.drw (x y : Reg) (n : Fin 16) : EncodeMatchesRow.Statement (.drw x y n) := row_packXYN _ _ _ _
theorem EncodeMatchesRow.skp (x : Reg) : EncodeMatchesRow.Statement (.skp x) := row_packXNN_low _ _ _
theorem EncodeMatchesRow.sknp (x : Reg) : EncodeMatchesRow.Statement (.sknp x) := row_packXNN_low _ _ _
theorem EncodeMatchesRow.ldVxDt (x : Reg) : EncodeMatchesRow.Statement (.ldVxDt x) := row_packXNN_byte _ _ _
theorem EncodeMatchesRow.ldVxK (x : Reg) : EncodeMatchesRow.Statement (.ldVxK x) := row_packXNN_byte _ _ _
theorem EncodeMatchesRow.ldDt (x : Reg) : EncodeMatchesRow.Statement (.ldDt x) := row_packXNN_byte _ _ _
theorem EncodeMatchesRow.ldSt (x : Reg) : EncodeMatchesRow.Statement (.ldSt x) := row_packXNN_byte _ _ _
theorem EncodeMatchesRow.addI (x : Reg) : EncodeMatchesRow.Statement (.addI x) := row_packXNN_byte _ _ _
theorem EncodeMatchesRow.ldF (x : Reg) : EncodeMatchesRow.Statement (.ldF x) := row_packXNN_byte _ _ _
theorem EncodeMatchesRow.ldB (x : Reg) : EncodeMatchesRow.Statement (.ldB x) := row_packXNN_byte _ _ _
theorem EncodeMatchesRow.ldMemVx (x : Reg) : EncodeMatchesRow.Statement (.ldMemVx x) := row_packXNN_byte _ _ _
theorem EncodeMatchesRow.ldVxMem (x : Reg) : EncodeMatchesRow.Statement (.ldVxMem x) := row_packXNN_byte _ _ _

end Sys2Proof.Laws
end

