-- ==== Sys2Proof/Tests/Slice0.lean ====
section
/-! SUPPORT. Tests of single steps and decodings, with expected values taken from spec/95_test_vectors.md and the rules
named, and for every obligation with hypotheses a witness that meets them, at the ends of each clause's range. -/

open Sys2Proof Sys2Proof.Machine

namespace Sys2Proof.Tests

/-! ### Builders -/

/-- Registers set one by one. -/
def withRegs (s : State) (l : List (Reg × Byte)) : State := l.foldl (fun s p => s.setReg p.1 p.2) s

/-- Bytes stored from an address upward. -/
def poke (s : State) (a : Nat) (bs : List Byte) : State := (s.storeBytes a bs).getD s

/-- Cells turned on. -/
def lit (s : State) (l : List (Nat × Nat)) : State := { s with fb := l.foldl (fun fb p => Fb.toggle fb p.1 p.2) s.fb }

/-- Reset with one parameter set away from its default. -/
def resetVy : State := State.resetWith { Config.default with shiftSource := .vy }
def resetResultLast : State := State.resetWith { Config.default with vfWriteOrder := .resultLast }
def resetStrict : State := State.resetWith { Config.default with pcAlign := .fault }

/-- The state Execute starts in, at the reset pc. -/
def entered (s : State) (w : Word) : State := s.beginCycle.enterExecute w

/-- Whether an outcome is a next state with a property. -/
def answersWith (o : Host.Outcome State Fault Refusal) (p : State → Bool) : Bool :=
  match o with
  | .next t => p t
  | _ => false

/-- One STEP with a word at pc: whether it answers a state with a property. -/
def steps (s : State) (w : Nat) (p : State → Bool) : Bool := answersWith (step (s.withFetchWord 16 w)) p

theorem of_answersWith {o : Host.Outcome State Fault Refusal} {p : State → Bool} (h : answersWith o p = true) :
    ∃ t, o = .next t ∧ p t = true := by
  cases o with
  | next t => exact ⟨t, rfl, h⟩
  | fault f => cases h
  | refused r => cases h

/-! ### Well-formedness: an image one byte too long is refused, the longest is accepted (R255) -/

theorem test_wellFormed_image : imageWellFormed (List.replicate 3584 0) = true := by
  rw [imageWellFormed, List.length_replicate]; decide
theorem test_wellFormed_imageTooLong : imageWellFormed (List.replicate 3585 0) = false := by
  rw [imageWellFormed, List.length_replicate]; decide

/-! ### Decoding: words written out from 30_encoding.md R95 and 95_test_vectors.md L2 -/

theorem test_decode_family0 :
    decodeWord 0x00E0 = .instr .cls ∧ decodeWord 0x0120 = .instr .cls ∧ decodeWord 0x00EE = .instr .ret ∧
    decodeWord 0x0ABE = .instr .ret ∧ decodeWord 0x00E1 = .unmapped ∧ decodeWord 0x0123 = .unmapped := by decide
theorem test_decode_primary_nnn :
    decodeWord 0b0001001000110100 = .instr (.jp 0x234) ∧ decodeWord 0b0010001100000000 = .instr (.call 0x300) ∧
    decodeWord 0b1010001011110000 = .instr (.ldI 0x2F0) ∧ decodeWord 0b1011000100100011 = .instr (.jpV0 0x123) := by
  decide
theorem test_decode_primary_xnn :
    decodeWord 0b0011001101000010 = .instr (.seImm 3 0x42) ∧ decodeWord 0b0100001101000010 = .instr (.sneImm 3 0x42) ∧
    decodeWord 0b0110101000101111 = .instr (.ldImm 10 0x2F) ∧ decodeWord 0b0111000000000010 = .instr (.addImm 0 2) ∧
    decodeWord 0b1100001100001111 = .instr (.rnd 3 0x0F) := by decide
theorem test_decode_primary_xy :
    decodeWord 0b0101000100100001 = .instr (.seReg 1 2) ∧ decodeWord 0b1001101010110011 = .instr (.sneReg 10 11) ∧
    decodeWord 0b1101000100100101 = .instr (.drw 1 2 5) := by decide
theorem test_decode_family8 :
    decodeWord 0b1000000101010000 = .instr (.ldReg 1 5) ∧ decodeWord 0b1000000100100001 = .instr (.or 1 2) ∧
    decodeWord 0b1000000100100010 = .instr (.and 1 2) ∧ decodeWord 0b1000000100100011 = .instr (.xor 1 2) ∧
    decodeWord 0b1000000100100100 = .instr (.addReg 1 2) ∧ decodeWord 0b1000000100100101 = .instr (.sub 1 2) ∧
    decodeWord 0b1000000100100110 = .instr (.shr 1 2) ∧ decodeWord 0b1000000100100111 = .instr (.subn 1 2) ∧
    decodeWord 0b1000000100101110 = .instr (.shl 1 2) ∧ decodeWord 0x8AB8 = .unmapped ∧
    decodeWord 0x8ABF = .unmapped := by decide
theorem test_decode_familyE :
    decodeWord 0b1110000110011110 = .instr (.skp 1) ∧ decodeWord 0b1110000110100001 = .instr (.sknp 1) ∧
    decodeWord 0xE10E = .instr (.skp 1) ∧ decodeWord 0xE101 = .instr (.sknp 1) ∧ decodeWord 0xE19F = .unmapped := by
  decide
theorem test_decode_familyF :
    decodeWord 0b1111010000000111 = .instr (.ldVxDt 4) ∧ decodeWord 0b1111001000001010 = .instr (.ldVxK 2) ∧
    decodeWord 0b1111000000010101 = .instr (.ldDt 0) ∧ decodeWord 0b1111001000011000 = .instr (.ldSt 2) ∧
    decodeWord 0b1111111100011110 = .instr (.addI 15) ∧ decodeWord 0b1111000000101001 = .instr (.ldF 0) ∧
    decodeWord 0b1111001100110011 = .instr (.ldB 3) ∧ decodeWord 0b1111000101010101 = .instr (.ldMemVx 1) ∧
    decodeWord 0b1111000101100101 = .instr (.ldVxMem 1) ∧ decodeWord 0xF100 = .unmapped ∧
    decodeWord 0xF0FF = .unmapped := by decide
theorem test_decode_bytes :
    decodeBytes [0x6A, 0x2F, 0x99] = .ok (.ldImm 10 0x2F, [0x99]) ∧
    decodeBytes [0x8A, 0xB8] = .error (.unmapped 0x8AB8) ∧ decodeBytes [0x6A] = .error .truncated := by decide
theorem test_decode_tableWord :
    decodeTableWord 16 0x8126 = some (.shr 1 2) ∧ decodeTableWord 16 0xF0FF = none := by decide

theorem test_assembly :
    (Instr.ldImm 10 0x2F).assembly = "LD VA, 0x2F" ∧ (Instr.jpV0 0x123).assembly = "JP V0, 0x123" ∧
    (Instr.ldVxMem 15).assembly = "LD VF, [I]" := by decide

/-! ### One step, per instruction (95_test_vectors.md L1 and L2; numbers in hex as there) -/

theorem test_cls : steps (lit (withRegs .reset [(15, 1)]) [(0, 0), (63, 31)]) 0x00E0
    (fun t => !t.cell 0 0 && !t.cell 63 31 && t.reg VF = 1 && t.pc = 0x202) = true := by decide
theorem test_ret : steps { State.reset with sp := 1, stack := State.reset.stack.set 0 0x345 } 0x00EE
    (fun t => t.sp = 0 && t.pc = 0x345 && t.stack[0] = 0x345) = true := by decide
theorem test_ret_underflow : steps State.reset 0x00EE
    (fun t => t.halted && t.faultCause = 4 && t.faultPc = 0x200 && t.faultOpcode = 0x00EE && t.faultInfo = 0 &&
      t.pc = 0x200) = true := by decide
theorem test_jp : steps State.reset 0x1234 (fun t => t.pc = 0x234) = true := by decide
theorem test_call : steps { State.reset with sp := 15 } 0x2300
    (fun t => t.stack[15] = 0x202 && t.sp = 16 && t.pc = 0x300 && !t.halted) = true := by decide
theorem test_call_overflow : steps { State.reset with sp := 16, dt := 5 } 0x2300
    (fun t => t.halted && t.faultCause = 3 && t.faultPc = 0x200 && t.faultOpcode = 0x2300 && t.faultInfo = 0x10 &&
      t.pc = 0x200 && t.sp = 16 && t.dt = 5) = true := by decide
theorem test_seImm : steps (withRegs .reset [(3, 0x42)]) 0x3342 (fun t => t.pc = 0x204) = true := by decide
theorem test_seImm_not : steps (withRegs .reset [(3, 0x41)]) 0x3342 (fun t => t.pc = 0x202) = true := by decide
theorem test_sneImm : steps (withRegs .reset [(3, 0x41)]) 0x4342 (fun t => t.pc = 0x204) = true := by decide
theorem test_sneImm_not : steps (withRegs .reset [(3, 0x42)]) 0x4342 (fun t => t.pc = 0x202) = true := by decide
theorem test_seReg : steps (withRegs .reset [(1, 7), (2, 7)]) 0x5120 (fun t => t.pc = 0x204) = true := by decide
theorem test_seReg_not : steps (withRegs .reset [(1, 7), (2, 8)]) 0x5120 (fun t => t.pc = 0x202) = true := by decide
theorem test_sneReg : steps (withRegs .reset [(1, 7), (2, 8)]) 0x9120 (fun t => t.pc = 0x204) = true := by decide
theorem test_sneReg_same : steps (withRegs .reset [(1, 7)]) 0x9110 (fun t => t.pc = 0x202) = true := by decide
theorem test_ldImm : steps State.reset 0x6A2F (fun t => t.reg 10 = 0x2F && t.pc = 0x202) = true := by decide
theorem test_addImm : steps (withRegs .reset [(0, 0xFF), (15, 9)]) 0x7002 (fun t => t.reg 0 = 1 && t.reg VF = 9) = true :=
  by decide
theorem test_addImm_vf : steps (withRegs .reset [(15, 0x80)]) 0x7F80 (fun t => t.reg VF = 0) = true := by decide
theorem test_ldReg : steps (withRegs .reset [(5, 9)]) 0x8150 (fun t => t.reg 1 = 9 && t.reg 5 = 9) = true := by decide
theorem test_or : steps (withRegs .reset [(1, 0x0F), (2, 0xF0), (15, 0x55)]) 0x8121
    (fun t => t.reg 1 = 0xFF && t.reg VF = 0x55) = true := by decide
theorem test_and : steps (withRegs .reset [(1, 0x3C), (2, 0x0F)]) 0x8122 (fun t => t.reg 1 = 0x0C) = true := by decide
theorem test_xor : steps (withRegs .reset [(1, 0xFF), (2, 0x0F)]) 0x8123 (fun t => t.reg 1 = 0xF0) = true := by decide
theorem test_addReg : steps (withRegs .reset [(1, 0xFF), (2, 1)]) 0x8124 (fun t => t.reg 1 = 0 && t.reg VF = 1) = true := by
  decide
theorem test_addReg_vf : steps (withRegs resetResultLast [(15, 0x80), (1, 0x80)]) 0x8F14 (fun t => t.reg VF = 0) = true := by
  decide
theorem test_sub : steps (withRegs .reset [(1, 3), (2, 5)]) 0x8125 (fun t => t.reg 1 = 0xFE && t.reg VF = 0) = true := by
  decide
theorem test_sub_equal : steps (withRegs .reset [(1, 7), (2, 7), (15, 1)]) 0x8125
    (fun t => t.reg 1 = 0 && t.reg VF = 0) = true := by decide
theorem test_subn : steps (withRegs .reset [(1, 3), (2, 5)]) 0x8127 (fun t => t.reg 1 = 2 && t.reg VF = 1) = true := by
  decide
theorem test_shr : steps (withRegs .reset [(1, 4), (2, 3)]) 0x8126 (fun t => t.reg 1 = 2 && t.reg VF = 0) = true := by
  decide
theorem test_shr_vy : steps (withRegs resetVy [(1, 0), (2, 3)]) 0x8126 (fun t => t.reg 1 = 1 && t.reg VF = 1) = true := by
  decide
theorem test_shl : steps (withRegs .reset [(1, 0x81)]) 0x810E (fun t => t.reg 1 = 2 && t.reg VF = 1) = true := by decide
theorem test_shl_vy : steps (withRegs resetVy [(1, 1), (2, 0x80)]) 0x812E (fun t => t.reg 1 = 0 && t.reg VF = 1) = true := by
  decide
theorem test_ldI : steps State.reset 0xA2F0 (fun t => t.i = 0x2F0) = true := by decide
theorem test_jpV0 : steps (withRegs .reset [(0, 0xFF)]) 0xBFFF (fun t => t.pc = 0x10FE && !t.halted) = true := by decide
theorem test_rnd : steps { State.reset with rndIn := [0xB7, 1] } 0xC30F
    (fun t => t.reg 3 = 7 && t.rndIn = [1] && t.rndCount = 1) = true := by decide
/-- The byte of the host's STEP is the Cycle's, whatever was lined up before. -/
theorem test_rnd_hostMove : answersWith (hostMove (.step 0xB7) (({ State.reset with rndIn := [1, 2] } : State).withFetchWord 16 0xC3FF))
    (fun t => t.reg 3 = 0xB7 && t.rndIn = [] && t.pc = 0x202) = true := by decide
theorem test_drw_wrap : steps { withRegs (poke .reset 0x300 [0xC0]) [(0, 0x3F), (1, 0x1F)] with i := 0x300 } 0xD011
    (fun t => t.cell 63 31 && t.cell 0 31 && !t.cell 62 31 && t.reg VF = 0) = true := by decide
theorem test_drw_collision : steps { lit (poke .reset 0x300 [0xC0]) [(0, 0)] with i := 0x300 } 0xD011
    (fun t => !t.cell 0 0 && t.cell 1 0 && t.reg VF = 1) = true := by decide
theorem test_skp : steps { withRegs .reset [(1, 5)] with key := 0x20 } 0xE19E (fun t => t.pc = 0x204) = true := by decide
theorem test_skp_index : steps (withRegs .reset [(1, 0x10)]) 0xE19E
    (fun t => t.halted && t.faultCause = 6 && t.faultInfo = 0x10) = true := by decide
theorem test_sknp : steps { withRegs .reset [(1, 5)] with key := 0x20 } 0xE1A1 (fun t => t.pc = 0x202) = true := by decide
theorem test_ldVxDt : steps { State.reset with dt := 0x10 } 0xF407 (fun t => t.reg 4 = 0x10 && t.dt = 0x0F) = true := by
  decide
theorem test_ldVxK : steps { State.reset with key := 0x208 } 0xF20A (fun t => t.reg 2 = 3 && t.pc = 0x202) = true := by
  decide
theorem test_ldVxK_waits : steps { State.reset with dt := 5 } 0xF20A
    (fun t => t.reg 2 = 0 && t.pc = 0x200 && t.dt = 4) = true := by decide
theorem test_ldDt : steps (withRegs .reset [(0, 0x0A)]) 0xF015 (fun t => t.dt = 9) = true := by decide
theorem test_ldSt : steps (withRegs .reset [(2, 1)]) 0xF218 (fun t => t.st = 0 && !t.soundOn) = true := by decide
theorem test_addI : steps { withRegs .reset [(2, 1), (15, 9)] with i := 0xFFFF } 0xF21E
    (fun t => t.i = 0 && t.reg VF = 9) = true := by decide
theorem test_ldF : steps (withRegs .reset [(0, 0xFF)]) 0xF029 (fun t => t.i = 0x54B && !t.halted) = true := by decide
theorem test_ldB : steps { withRegs .reset [(3, 0xFF)] with i := 0x300 } 0xF333
    (fun t => t.readByte 0x300 = some 2 && t.readByte 0x301 = some 5 && t.readByte 0x302 = some 5 && t.i = 0x300) = true := by
  decide
theorem test_ldMemVx : steps { withRegs .reset [(15, 0xAA)] with i := 0xFF0 } 0xFF55
    (fun t => t.readByte 0xFFF = some 0xAA && t.readByte 0xFFE = some 0 && t.i = 0xFF0) = true := by decide
theorem test_ldMemVx_bounds : steps { withRegs .reset [(0, 0xAA)] with i := 0xFF1 } 0xFF55
    (fun t => t.halted && t.faultCause = 5 && t.faultInfo = 0x1000 && t.readByte 0xFF1 = some 0) = true := by decide
theorem test_ldVxMem : steps { withRegs (poke .reset 0x300 [0x11, 0x22, 0x33]) [(2, 7)] with i := 0x300 } 0xF165
    (fun t => t.reg 0 = 0x11 && t.reg 1 = 0x22 && t.reg 2 = 7 && t.i = 0x300) = true := by decide

/-! ### The Cycle, the host's moves, memory -/

theorem test_unmapped : steps { State.reset with dt := 3 } 0x8AB8
    (fun t => t.pc = 0x202 && t.unkCnt = 1 && t.unkStrobe && t.dt = 2) = true := by decide
theorem test_fetchBounds : steps { State.reset with pc := 0xFFF } 0
    (fun t => t.halted && t.faultCause = 1 && t.faultPc = 0xFFF && t.faultOpcode = 0 && t.faultInfo = 0x1000) = true := by
  decide
theorem test_fetchMisaligned : steps { resetStrict with pc := 0x201 } 0
    (fun t => t.halted && t.faultCause = 2 && t.faultInfo = 0x201) = true := by decide
theorem test_load : answersWith (hostMove (.load [0x12, 0x34]) .reset)
    (fun t => t.readByte 0x200 = some 0x12 && t.readByte 0x201 = some 0x34 && !t.loadOpen) = true := by decide
theorem test_writeKey : answersWith (hostMove (.writeKey 0x8001) { State.reset with pc := 0x202, key := 5 }) (fun t => t.key = 0x8001 && t.pc = 0x202) = true := by
  decide
/-- The glyph region and its neighbours (10_state.md R31: glyph 0 begins F0, glyph F ends 80). -/
theorem test_reset_glyphs :
    State.reset.readByte 0x4F = some 0 ∧ State.reset.readByte 0x50 = some 0xF0 ∧
    State.reset.readByte 0x9F = some 0x80 ∧ State.reset.readByte 0xA0 = some 0 := by decide
theorem test_memory_ends :
    State.reset.readByte 4095 = some 0 ∧ State.reset.readByte 4096 = none ∧ (State.reset.writeByte 4096 0).isNone := by
  decide
/-- Writing back what an unlisted address reads as leaves nothing listed. -/
theorem test_memory_canonical :
    (poke .reset 0x300 [5, 6]).mem = [(0x300, 5), (0x301, 6)] ∧ (poke (poke .reset 0x300 [5, 6]) 0x300 [0]).mem =
      [(0x301, 6)] ∧ (poke .reset 0x50 [0xF0]).mem = [] := by decide

/-! ### Witnesses: for each obligation with hypotheses, concrete states and operands that meet them -/

/-- A state far from reset: bytes listed in memory, the highest pc and return address the invariant allows. -/
def busy : State :=
  { withRegs (poke .reset 0x300 [7, 8, 9]) [(1, 5), (15, 1)] with
    i := 0x300, pc := 0x10FE, sp := 1, stack := State.reset.stack.set 15 0x1000, dt := 3, loadOpen := false }

/-- A block that halted on a RET with an empty stack. -/
def stopped : State := faultEntry .reset .stackUnderflow 0x200 0x00EE 0

/-- A running state, under PC_ALIGN = FAULT, with two bytes at the last address a word can stand at. -/
def lastWord (hi lo : Byte) : State := poke { resetStrict with pc := 0xFFE } 0xFFE [hi, lo]

theorem busy_inv : busy.Inv := ⟨by decide, by decide, by decide, by decide, by unfold State.recordFits; decide⟩
theorem witness_StepKeepsInvariant : ∃ t, busy.Inv ∧ step busy = .next t :=
  (step_cases busy).imp fun _ h => ⟨busy_inv, h.1⟩
theorem witness_HostMovesKeepInvariant :
    State.reset.Inv ∧ (∃ t, hostMove .reset busy = .next t) ∧ (∃ t, hostMove (.writeKey 5) busy = .next t) ∧
    (∃ t, hostMove (.load [1, 2]) .reset = .next t) ∧ (∃ t, hostMove (.step 9) busy = .next t) :=
  ⟨⟨by decide, by decide, by decide, by decide, by unfold State.recordFits; decide⟩, ⟨_, rfl⟩, ⟨_, rfl⟩,
    (of_answersWith (p := fun _ => true) (by decide)).imp fun _ h => h.1,
    (step_cases { busy with rndIn := [9] }).imp fun _ h => h.1⟩
theorem witness_ResetMoveGivesTheResetState : ∃ t, hostMove .reset busy = .next t := ⟨_, rfl⟩
theorem witness_CanonicalMemoriesReadingAlikeAreEqual :
    Memory.wf busy.cfg.glyphRom busy.mem = true ∧ ({ busy with pc := 0 } : State).cfg = busy.cfg ∧
    (∀ a, a < 4096 → ({ busy with pc := 0 } : State).readByte a = busy.readByte a) :=
  ⟨by decide, rfl, fun a _ => readByte_congr rfl rfl a⟩
/-- A running state with a mapped word at the last address a word can stand at, under PC_ALIGN = FAULT. -/
theorem witness_StepRunsTheDecodedInstruction :
    (lastWord 0x6A 0x2F).halted = false ∧
    ¬((lastWord 0x6A 0x2F).cfg.pcAlign = .fault ∧ (lastWord 0x6A 0x2F).pc.toNat % 2 = 1) ∧
    (lastWord 0x6A 0x2F).readByte (lastWord 0x6A 0x2F).pc.toNat = some 0x6A ∧
    (lastWord 0x6A 0x2F).readByte ((lastWord 0x6A 0x2F).pc.toNat + 1) = some 0x2F ∧
    decodeWord ((0x6A : Byte) ++ (0x2F : Byte)) = .instr (.ldImm 10 0x2F) := by decide
theorem witness_UnmappedWordIsACountedNoOp :
    (lastWord 0x8A 0xB8).halted = false ∧
    ¬((lastWord 0x8A 0xB8).cfg.pcAlign = .fault ∧ (lastWord 0x8A 0xB8).pc.toNat % 2 = 1) ∧
    (lastWord 0x8A 0xB8).readByte (lastWord 0x8A 0xB8).pc.toNat = some 0x8A ∧
    (lastWord 0x8A 0xB8).readByte ((lastWord 0x8A 0xB8).pc.toNat + 1) = some 0xB8 ∧
    decodeWord ((0x8A : Byte) ++ (0xB8 : Byte)) = .unmapped := by decide
theorem witness_HaltedBlockOnlyLeavesByReset :
    stopped.halted = true ∧ (∃ t, hostMove (.step 0) stopped = .next t ∧ HostMove.step 0 ≠ .reset) ∧
    (∃ t, hostMove (.writeKey 7) stopped = .next t ∧ HostMove.writeKey 7 ≠ .reset) :=
  ⟨by decide, ⟨_, rfl, by decide⟩, ⟨_, rfl, by decide⟩⟩
/-- The three clauses: an odd pc under PC_ALIGN = FAULT; pc = 4095 and 4096; pc = 4094 and an odd pc under ALLOW. -/
theorem witness_FetchChecksThenReadsBigEndian :
    (resetStrict.cfg.pcAlign = .fault ∧ ({ resetStrict with pc := 0xFFFF } : State).pc.toNat % 2 = 1) ∧
    (¬(State.reset.cfg.pcAlign = .fault ∧ (4095 : Word).toNat % 2 = 1) ∧
      ({ State.reset with pc := 4095 } : State).pc.toNat + 1 > 4095 ∧
      ({ State.reset with pc := 4096 } : State).pc.toNat + 1 > 4095) ∧
    (¬(resetStrict.cfg.pcAlign = .fault ∧ ({ resetStrict with pc := 4094 } : State).pc.toNat % 2 = 1) ∧
      ({ resetStrict with pc := 4094 } : State).pc.toNat + 1 ≤ 4095 ∧
      ¬(State.reset.cfg.pcAlign = .fault ∧ ({ State.reset with pc := 4093 } : State).pc.toNat % 2 = 1)) := by decide
theorem witness_FaultsArePrecise :
    ({ State.reset with pc := 4095 } : State).halted = false ∧
    ({ State.reset with pc := 4095 } : State).fetch = .error (.fetchBounds, 4096) ∧
    ({ State.reset with pc := 4096 } : State).fetch = .error (.fetchBounds, 4096) ∧
    ({ resetStrict with pc := 4095 } : State).fetch = .error (.fetchMisaligned, 4095) ∧
    (State.reset.withFetchWord 16 0x00EE).halted = false ∧ (State.reset.withFetchWord 16 0x00EE).fetch = .ok 0x00EE ∧
    decodeWord 0x00EE = .instr .ret ∧ expectedFault .ret (State.reset.withFetchWord 16 0x00EE) = some (4, 0) ∧
    ∃ t, step (State.reset.withFetchWord 16 0x00EE) = .next t ∧ t.halted = true :=
  ⟨by decide, by decide, by decide, by decide, by decide, by decide, by decide, by decide,
    of_answersWith (p := fun t => t.halted) (by decide)⟩
/-- Every row of the fault table at the ends of its condition, and the state just inside it. -/
theorem witness_ExecuteFaultsExactlyAsTheTableSays :
    expectedFault (.call 0) { State.reset with sp := 16 } = some (3, 16) ∧
    expectedFault (.call 0) { State.reset with sp := 15 } = none ∧ expectedFault .ret State.reset = some (4, 0) ∧
    expectedFault .ret { State.reset with sp := 1 } = none ∧
    expectedFault (.skp 1) (withRegs .reset [(1, 16)]) = some (6, 16) ∧
    expectedFault (.skp 1) (withRegs .reset [(1, 15)]) = none ∧
    expectedFault (.sknp 1) (withRegs .reset [(1, 255)]) = some (6, 255) ∧
    expectedFault (.drw 0 0 15) { State.reset with i := 4082 } = some (5, 4096) ∧
    expectedFault (.drw 0 0 15) { State.reset with i := 4081 } = none ∧
    expectedFault (.drw 0 0 0) { State.reset with i := 65535 } = none ∧
    expectedFault (.ldB 0) { State.reset with i := 4094 } = some (5, 4096) ∧
    expectedFault (.ldB 0) { State.reset with i := 4093 } = none ∧
    expectedFault (.ldMemVx 0) { State.reset with i := 65535 } = some (5, 65535) ∧
    expectedFault (.ldVxMem 15) { State.reset with i := 4080 } = none := by decide
/-- A Cycle of LD DT, one of LD ST and one of neither, with the timers at 0, 1 and 255. -/
theorem witness_TimersStepOnceInEveryCycle :
    steps { withRegs .reset [(1, 255)] with dt := 1, st := 255 } 0xF115
      (fun t => !t.halted && t.dt = 254 && t.st = 254) = true ∧
    steps { withRegs .reset [(1, 1)] with dt := 1, st := 9 } 0xF118 (fun t => !t.halted && t.dt = 0 && t.st = 0) = true ∧
    steps { State.reset with dt := 0, st := 255 } 0x8AB8 (fun t => !t.halted && t.dt = 0 && t.st = 254) = true ∧
    decodeWord 0xF115 = .instr (.ldDt 1) ∧ decodeWord 0xF118 = .instr (.ldSt 1) ∧
    (∀ x, decodeWord 0x8AB8 ≠ .instr (.ldDt x) ∧ decodeWord 0x8AB8 ≠ .instr (.ldSt x)) ∧
    (State.reset.withFetchWord 16 0xF115).fetch = .ok 0xF115 ∧ (State.reset.withFetchWord 16 0xF118).fetch = .ok 0xF118 ∧
    (State.reset.withFetchWord 16 0x8AB8).fetch = .ok 0x8AB8 ∧ State.reset.halted = false := by decide
theorem witness_UnknownOpcodesAreCounted :
    steps { State.reset with unkCnt := 0xFFFFFFFF } 0x8AB8 (fun t => t.unkCnt = 0 && t.unkStrobe) = true ∧
    steps { State.reset with unkCnt := 7, unkStrobe := true } 0x6001 (fun t => t.unkCnt = 7 && !t.unkStrobe) = true ∧
    decodeWord 0x8AB8 = .unmapped ∧ decodeWord 0x6001 ≠ .unmapped ∧
    (State.reset.withFetchWord 16 0x8AB8).fetch = .ok 0x8AB8 ∧ (State.reset.withFetchWord 16 0x6001).fetch = .ok 0x6001 ∧
    State.reset.halted = false := by decide
/-- JP 0x200 at 0x200, and JP 0xFFE at the last address a word can stand at. -/
theorem witness_ParkedBlockOnlyCountsTimersDown :
    (State.reset.withFetchWord 16 0x1200).halted = false ∧ (State.reset.withFetchWord 16 0x1200).parked ∧
    (lastWord 0x1F 0xFE).halted = false ∧ (lastWord 0x1F 0xFE).parked :=
  ⟨by decide, ⟨0x1200, 0x200, by decide, by decide, by decide⟩, by decide,
    ⟨0x1FFE, 0xFFE, by decide, by decide, by decide⟩⟩
theorem witness_CallPushesTheReturnAddress :
    State.reset.sp.val ≠ 16 ∧ ({ State.reset with sp := 15 } : State).sp.val ≠ 16 ∧
    ({ State.reset with sp := 16 } : State).sp.val = 16 := by decide
theorem witness_ReturnPopsIntoPc :
    ({ State.reset with sp := 1 } : State).sp.val = (0 : Fin 16).val + 1 ∧
    ({ State.reset with sp := 16 } : State).sp.val = (15 : Fin 16).val + 1 ∧ State.reset.sp.val = 0 := by decide
theorem witness_ReturnUndoesCall :
    ({ State.reset with sp := 15 } : State).sp.val ≠ 16 ∧
    ∃ t u, exec (.call 0x300) { State.reset with sp := 15 } = .next t ∧ exec .ret { t with pc := 7 } = .next u :=
  ⟨by decide, _, _, rfl, rfl⟩
/-- The clauses of WritesResultAndFlag, for AddSetsCarry, SubtractsSetStrictlyGreaterFlag and the shifts. -/
theorem witness_WritesResultAndFlag :
    (14 : Reg) ≠ VF ∧ (15 : Reg) = VF ∧ State.reset.cfg.vfWriteOrder = .flagLast ∧
    resetResultLast.cfg.vfWriteOrder = .resultLast := by decide
theorem witness_ShiftsSetTheBitShiftedOut :
    (State.reset.cfg.shiftSource = .vx ∧ (0 : Byte) = State.reset.reg 1) ∧
    (resetVy.cfg.shiftSource = .vy ∧ (0x80 : Byte) = (withRegs resetVy [(2, 0x80)]).reg 2) := by decide
theorem witness_RandomByteIsMasked :
    ({ State.reset with rndIn := [0xB7] } : State).rndIn = 0xB7 :: [] ∧ State.reset.rndIn = [] ∧
    (State.reset.withFetchWord 16 0xCFFF).halted = false ∧ (State.reset.withFetchWord 16 0xCFFF).fetch = .ok 0xCFFF ∧
    (0xCFFF : Word) &&& 0xF000 = 0xC000 := by decide
/-- In range: 15 rows that end at the last byte, and no rows at the last I; out of range: one byte too far, and the
last I. A covered cell that was on, and a screen on which none was. -/
theorem witness_DrawXorsTheSpriteAndReportsCollision :
    ((List.replicate 15 (0 : Byte)).length = 15 ∧
      ∀ r (h : r < (List.replicate 15 (0 : Byte)).length),
        ({ State.reset with i := 4081 } : State).readByte (4081 + r) = some (List.replicate 15 (0 : Byte))[r]) ∧
    (∀ r (h : r < ([] : List Byte).length),
      ({ State.reset with i := 65535 } : State).readByte (65535 + r) = some ([] : List Byte)[r]) ∧
    ((15 : Fin 16).val > 0 ∧ (4082 : Word).toNat + (15 : Fin 16).val - 1 > 4095) ∧
    ((1 : Fin 16).val > 0 ∧ (65535 : Word).toNat + (1 : Fin 16).val - 1 > 4095) ∧
    (SpriteCovers [0x01] 63 31 6 31 ∧ (lit .reset [(6, 31)]).cell 6 31 = true) ∧ ¬SpriteCovers [0x01] 63 31 7 31 := by
  refine ⟨by decide, by decide, by decide, by decide, ⟨⟨0, 7, 1, by decide⟩, by decide⟩, ?_⟩
  rintro ⟨r, c, b, h1, h2, -, h3, -⟩
  have hr : r < 1 := by
    by_contra h
    rw [List.getElem?_eq_none (by simp; omega)] at h1; cases h1
  omega
theorem witness_DrawingTwiceRestoresTheScreen :
    ∃ t u, (0 : Reg) ≠ VF ∧ State.reset.i.toNat + (5 : Fin 16).val ≤ 4096 ∧
      exec (.drw 0 0 5) { State.reset with i := 0x50 } = .next t ∧ exec (.drw 0 0 5) t = .next u ∧ t.reg VF = 0 := by
  have h : ∃ t, exec (.drw 0 0 5) { State.reset with i := 0x50 } = .next t ∧
      decide (t.reg VF = 0) = true := of_answersWith (p := fun t => decide (t.reg VF = 0)) (by decide)
  obtain ⟨t, ht, hv⟩ := h
  obtain ⟨u, hu, -⟩ := exec_cases (.drw 0 0 5) t
  exact ⟨t, u, by decide, by decide, ht, hu, by simpa using hv⟩
theorem witness_OnlyClsAndDrwChangeTheFramebuffer :
    ∃ t, step ((lit .reset [(0, 0)]).withFetchWord 16 0x00E0) = .next t ∧
      decide (t.fb ≠ (lit .reset [(0, 0)]).fb) = true :=
  of_answersWith (p := fun t => decide (t.fb ≠ (lit .reset [(0, 0)]).fb)) (by decide)
theorem witness_KeySkipsTestTheSample :
    ((withRegs .reset [(1, 15)]).reg 1).toNat ≤ 15 ∧ ((withRegs .reset [(1, 16)]).reg 1).toNat > 15 := by decide
/-- Key 15 alone, key 0 with key 15, and no key. -/
theorem witness_KeyWaitTakesTheLowestKeyOrRepeats :
    ((0x8000 : BitVec 16).getLsbD 15 = true ∧ ∀ j : Fin 16, j < 15 → (0x8000 : BitVec 16).getLsbD j.val = false) ∧
    ((0x8001 : BitVec 16).getLsbD 0 = true ∧ ∀ j : Fin 16, j < 0 → (0x8001 : BitVec 16).getLsbD j.val = false) ∧
    (∀ k : Fin 16, State.reset.key.getLsbD k.val = false) := by decide
theorem witness_BcdStoresThreeDigits :
    ({ State.reset with i := 4093 } : State).i.toNat + 2 ≤ 4095 ∧ ({ State.reset with i := 4094 } : State).i.toNat + 2 > 4095 ∧
    ({ State.reset with i := 65535 } : State).i.toNat + 2 > 4095 := by decide
/-- For both block transfers: the last I that fits, for X = 0 and X = 15, and the first that does not. -/
theorem witness_BlockStoreWritesV0ToVx_BlockLoadReadsV0ToVx :
    ({ State.reset with i := 4095 } : State).i.toNat + (0 : Reg).val ≤ 4095 ∧
    ({ State.reset with i := 4080 } : State).i.toNat + (15 : Reg).val ≤ 4095 ∧
    ({ State.reset with i := 4096 } : State).i.toNat + (0 : Reg).val > 4095 ∧
    ({ State.reset with i := 4081 } : State).i.toNat + (15 : Reg).val > 4095 := by decide
theorem witness_BlockStoreThenLoadRestoresRegisters :
    ∃ t u, State.reset.i.toNat + (15 : Reg).val ≤ 4095 ∧ exec (.ldMemVx 15) .reset = .next t ∧
      exec (.ldVxMem 15) { t with v := Vector.replicate 16 0 } = .next u := by
  obtain ⟨t, ht, -⟩ := exec_cases (.ldMemVx 15) .reset
  obtain ⟨u, hu, -⟩ := exec_cases (.ldVxMem 15) { t with v := Vector.replicate 16 0 }
  exact ⟨t, u, by decide, ht, hu⟩
/-- A store that reaches the last byte, one that would pass it, and the empty store outside memory. -/
theorem witness_ReadsReturnTheLastWrite :
    (State.reset.storeBytes 4094 [1, 2]).isSome ∧ State.reset.storeBytes 4095 [1, 2] = none ∧
    (State.reset.storeBytes 5000 []).isSome ∧ 4095 + [(1 : Byte), 2].length > 4096 := by decide
theorem witness_FetchSeesEarlierStores :
    ∃ t, State.reset.storeBytes State.reset.pc.toNat [0x12, 0x08] = some t ∧
      ¬(State.reset.cfg.pcAlign = .fault ∧ State.reset.pc.toNat % 2 = 1) := ⟨_, rfl, by decide⟩
theorem witness_OnlyStoresChangeMemory :
    ∃ t, step (({ withRegs .reset [(0, 9)] with i := 0x300 } : State).withFetchWord 16 0xF055) = .next t ∧
      decide (t.readByte 0x300 ≠ State.reset.readByte 0x300) = true :=
  of_answersWith (p := fun t => decide (t.readByte 0x300 ≠ State.reset.readByte 0x300)) (by decide)
theorem witness_OnlyIndexInstructionsChangeI :
    ∃ t, step (State.reset.withFetchWord 16 0xA2F0) = .next t ∧ decide (t.i ≠ State.reset.i) = true :=
  of_answersWith (p := fun t => decide (t.i ≠ State.reset.i)) (by decide)
theorem witness_OnlyCallAndRetChangeTheStack :
    ∃ t, step (State.reset.withFetchWord 16 0x2300) = .next t ∧
      decide (t.sp ≠ State.reset.sp ∧ t.stack ≠ State.reset.stack) = true :=
  of_answersWith (p := fun t => decide (t.sp ≠ State.reset.sp ∧ t.stack ≠ State.reset.stack)) (by decide)
theorem witness_OnlyFlagInstructionsAndDestinationsChangeVf :
    (∃ t, exec (.addReg 1 2) (withRegs .reset [(1, 0xFF), (2, 1)]) = .next t ∧
      decide (t.reg VF ≠ (withRegs .reset [(1, 0xFF), (2, 1)]).reg VF) = true) ∧
    (∃ t, exec (.ldImm VF 5) .reset = .next t ∧ decide (t.reg VF ≠ State.reset.reg VF) = true) :=
  ⟨of_answersWith (p := fun t => decide (t.reg VF ≠ (withRegs .reset [(1, 0xFF), (2, 1)]).reg VF)) (by decide),
    of_answersWith (p := fun t => decide (t.reg VF ≠ State.reset.reg VF)) (by decide)⟩
theorem witness_OnlyKeyInstructionsReadTheKeypad :
    (∀ x, Instr.cls ≠ .skp x ∧ Instr.cls ≠ .sknp x ∧ Instr.cls ≠ .ldVxK x) ∧ ∃ t, exec .cls .reset = .next t :=
  ⟨by decide, _, rfl⟩
theorem witness_OnlyRndReadsTheRandomInput :
    (∀ x nn, Instr.cls ≠ .rnd x nn) ∧ ∃ t, exec .cls .reset = .next t := ⟨by simp, _, rfl⟩
theorem witness_ParametersNeverChange : ∃ t, hostMove (.step 0) busy = .next t :=
  (step_cases { busy with rndIn := [0] }).imp fun _ h => h.1
/-- The longest image and the first that is too long while the window is open; a closed window; a running step. -/
theorem witness_LoadCopiesTheImage :
    State.reset.loadOpen = true ∧ (List.replicate 3584 (1 : Byte)).length ≤ 3584 ∧
    (List.replicate 3585 (1 : Byte)).length > 3584 ∧ busy.loadOpen = false ∧
    ∃ t, step .reset = .next t ∧ State.reset.halted = false := by
  refine ⟨rfl, by rw [List.length_replicate], by rw [List.length_replicate]; decide, rfl, ?_⟩
  exact (step_cases .reset).imp fun _ h => ⟨h.1, rfl⟩
theorem witness_OutputsShowScreenAndSound :
    31 * 64 + 63 < 2048 ∧ ({ State.reset with st := 1 } : State).soundOn = true ∧ State.reset.st = 0 := by decide
theorem witness_DecodeOfEncodeIsTheInstruction :
    (Instr.drw 15 15 15).wellFormed = true ∧ (Instr.jp 0xFFF).wellFormed = true ∧ (Instr.ldImm 15 0xFF).wellFormed = true :=
  by decide
theorem witness_DecoderFollowsTheOpcodeTable :
    decodeWord 0xFFFF = .unmapped ∧ decodeWord 0x0000 = .instr .cls ∧ (0x0000 : Word) &&& 0xF00F = 0x0000 := by decide
/-- Words that fit the masks with every don't-care bit set, and their decodings (R89). -/
theorem witness_Encoded :
    (0x0FF0 : Word) &&& 0xF00F = 0x0000 ∧ (0x0FFE : Word) &&& 0xF00F = 0x000E ∧ (0x1FFF : Word) &&& 0xF000 = 0x1000 ∧
    (0x512F : Word) &&& 0xF000 = 0x5000 ∧ (0x912F : Word) &&& 0xF000 = 0x9000 ∧ (0x8FF4 : Word) &&& 0xF00F = 0x8004 ∧
    (0xE1FE : Word) &&& 0xF00F = 0xE00E ∧ (0xE1F1 : Word) &&& 0xF00F = 0xE001 ∧ (0xFF65 : Word) &&& 0xF0FF = 0xF065 := by
  decide

end Sys2Proof.Tests
end

section
/-! The outputs: FB_OUT shows the framebuffer cell by cell (10_state.md R36), SOUND_ON tells whether ST runs (60_exceptions.md R230). -/
namespace Sys2Proof.Machine

/-- The bit order of FB_OUT (R36): row-major, 64 columns to a row. -/
theorem State.fbOutBit_row_column (s : State) {x y : Nat} (hx : x < 64) (h : y * 64 + x < 2048) :
    s.fbOutBit ⟨y * 64 + x, h⟩ = s.cell x y := by
  have column : (y * 64 + x) % 64 = x := by omega
  have row : (y * 64 + x) / 64 = y := by omega
  simp only [State.fbOutBit, column, row]

/-- The list form of FB_OUT has bit 0 first. -/
theorem State.fbOut_getElem? (s : State) (k : Fin 2048) : s.fbOut[k.val]? = some (s.fbOutBit k) := by
  have bound : k.val < (List.finRange 2048).length := by rw [List.length_finRange]; exact k.isLt
  rw [State.fbOut, List.getElem?_map, List.getElem?_eq_getElem bound, List.getElem_finRange]
  rfl

@[simp] theorem State.soundOn_iff (s : State) : s.soundOn = true ↔ s.st ≠ 0 :=
  decide_eq_true_iff

/-- Settles O51: the bit order of FB_OUT, its list form and SOUND_ON, each by its own lemma. -/
theorem outputsShowScreenAndSound : Obligations.OutputsShowScreenAndSound := fun s =>
  ⟨fun _ _ hx _ h => s.fbOutBit_row_column hx h, s.fbOut_getElem?, s.soundOn_iff⟩

end Sys2Proof.Machine
end

section
/-! The decoder against the opcode table (30_encoding.md R91): the keys the decoder examines decide the row of what it
answers, and every row's mask keeps these keys. -/
namespace Sys2Proof

/-! ### A masked word, from its fields -/

theorem packXNN_fields (w : Word) : packXNN (fieldP w) (fieldX w) (fieldNN w) = w := by
  simp only [packXNN, fieldP, fieldX, fieldNN, BitVec.ofFin_toFin]
  rw [BitVec.extractLsb'_append_extractLsb'_eq_extractLsb' (by rfl),
    BitVec.extractLsb'_append_extractLsb'_eq_extractLsb' (by rfl)]
  exact BitVec.extractLsb'_eq_self

theorem and_primary_mask {w : Word} {p : BitVec 4} (hp : fieldP w = p) : w &&& 0xF000#16 = p ++ 0#12 := by
  rw [← hp, ← Laws.row_packXNN (fieldP w) (fieldX w) (fieldNN w), packXNN_fields]

theorem and_low_mask {w : Word} {p n : BitVec 4} (hp : fieldP w = p) (hn : fieldLow w = n) :
    w &&& 0xF00F#16 = p ++ 0#8 ++ n := by
  rw [← hp, ← hn, ← packXNN_fields w, Laws.row_packXNN_low]
  simp

theorem and_byte_mask {w : Word} {p : BitVec 4} {nn : Byte} (hp : fieldP w = p) (hn : fieldNN w = nn) :
    w &&& 0xF0FF#16 = p ++ 0#4 ++ nn := by
  rw [← hp, ← hn, ← Laws.row_packXNN_byte (fieldP w) (fieldX w) (fieldNN w), packXNN_fields]

/-! ### A decoded instruction fits its row -/

/-- The word fits the mask and match of the instruction's row. -/
def Instr.FitsRow (i : Instr) (w : Word) : Prop := w &&& i.maskMatch.1 = i.maskMatch.2

theorem fitsRow_of_decode0 {w : Word} {i : Instr} (hp : fieldP w = 0x0#4) (h : decode0 w = .instr i) : i.FitsRow w := by
  unfold decode0 at h
  split at h <;> cases h <;> exact and_low_mask hp ‹_›

theorem fitsRow_of_decode8 {w : Word} {i : Instr} (hp : fieldP w = 0x8#4) (h : decode8 w = .instr i) : i.FitsRow w := by
  unfold decode8 at h
  split at h <;> cases h <;> exact and_low_mask hp ‹_›

theorem fitsRow_of_decodeE {w : Word} {i : Instr} (hp : fieldP w = 0xE#4) (h : decodeE w = .instr i) : i.FitsRow w := by
  unfold decodeE at h
  split at h <;> cases h <;> exact and_low_mask hp ‹_›

theorem fitsRow_of_decodeF {w : Word} {i : Instr} (hp : fieldP w = 0xF#4) (h : decodeF w = .instr i) : i.FitsRow w := by
  unfold decodeF at h
  split at h <;> cases h <;> exact and_byte_mask hp ‹_›

theorem fitsRow_of_decodeWord {w : Word} {i : Instr} (h : decodeWord w = .instr i) : i.FitsRow w := by
  unfold decodeWord at h
  split at h
  case h_1 hp => exact fitsRow_of_decode0 hp h
  case h_9 hp => exact fitsRow_of_decode8 hp h
  case h_15 hp => exact fitsRow_of_decodeE hp h
  case h_16 =>
    have hp : fieldP w = 0xF#4 := by simp only [imp_false] at *; bv_omega
    exact fitsRow_of_decodeF hp h
  all_goals
    cases h
    exact and_primary_mask ‹_›

/-- Every instruction's row stands in the table. -/
theorem maskMatch_mem_opcodeRows (i : Instr) : i.maskMatch ∈ opcodeRows := by
  cases i <;> simp only [Instr.maskMatch] <;> decide

/-! ### The row of what the decoder answers, from the keys -/

/-- The row of a decoded word. -/
def Decoded.row : Decoded → Option (Word × Word)
  | .instr i => some i.maskMatch
  | .unmapped => none

/-- Two words agree on the keys the decoder examines: op[15:12], and the secondary key of the family (R84 to R88). -/
def SameKeys (w v : Word) : Prop :=
  fieldP w = fieldP v ∧ (fieldP v ∈ [0x0#4, 0x8#4, 0xE#4] → fieldLow w = fieldLow v) ∧
    (fieldP v = 0xF#4 → fieldNN w = fieldNN v)

theorem row_decode0_congr {w v : Word} (h : fieldLow w = fieldLow v) : (decode0 w).row = (decode0 v).row := by
  rw [decode0, decode0, h]

theorem row_decode8_congr {w v : Word} (h : fieldLow w = fieldLow v) : (decode8 w).row = (decode8 v).row := by
  rw [decode8, decode8, h]
  split <;> rfl

theorem row_decodeE_congr {w v : Word} (h : fieldLow w = fieldLow v) : (decodeE w).row = (decodeE v).row := by
  rw [decodeE, decodeE, h]
  split <;> rfl

theorem row_decodeF_congr {w v : Word} (h : fieldNN w = fieldNN v) : (decodeF w).row = (decodeF v).row := by
  rw [decodeF, decodeF, h]
  split <;> rfl

theorem row_decodeWord_congr {w v : Word} (h : SameKeys w v) : (decodeWord w).row = (decodeWord v).row := by
  obtain ⟨hp, low, byte⟩ := h
  rw [decodeWord, decodeWord, hp]
  split
  case h_1 hv => exact row_decode0_congr (low (by simp [hv]))
  case h_9 hv => exact row_decode8_congr (low (by simp [hv]))
  case h_15 hv => exact row_decodeE_congr (low (by simp [hv]))
  case h_16 =>
    have hv : fieldP v = 0xF#4 := by simp only [imp_false] at *; bv_omega
    exact row_decodeF_congr (byte hv)
  all_goals rfl

/-- A row's mask keeps the keys the decoder examines in the row's family. -/
def MaskKeepsKeys (mask fixed : Word) : Prop :=
  fieldP mask = 0xF#4 ∧ (fieldP fixed ∈ [0x0#4, 0x8#4, 0xE#4] → fieldLow mask = 0xF#4) ∧
    (fieldP fixed = 0xF#4 → fieldNN mask = 0xFF#8)

theorem opcodeRows_maskKeepsKeys : ∀ r ∈ opcodeRows, MaskKeepsKeys r.1 r.2 := by
  intro r hr
  unfold MaskKeepsKeys
  fin_cases hr <;> decide

/-- Words that fit a mask which keeps the keys agree on the keys with its match. -/
theorem MaskKeepsKeys.sameKeys {w mask fixed : Word} (keeps : MaskKeepsKeys mask fixed) (h : w &&& mask = fixed) :
    SameKeys w fixed := by
  obtain ⟨keepsP, keepsLow, keepsByte⟩ := keeps
  exact ⟨fieldP_of_and h keepsP, fun hp => fieldLow_of_and h (keepsLow hp), fun hp => fieldNN_of_and h (keepsByte hp)⟩

/-- The match of a row, read as a word, decodes to an instruction of that row. -/
theorem row_decodeWord_match : ∀ r ∈ opcodeRows, (decodeWord r.2).row = some r :=
  List.map_inj_left.mp rfl

/-- A word that fits a row of the table decodes to an instruction of that row. -/
theorem row_decodeWord_of_fits {w : Word} {r : Word × Word} (hr : r ∈ opcodeRows) (h : w &&& r.1 = r.2) :
    (decodeWord w).row = some r := by
  rw [row_decodeWord_congr ((opcodeRows_maskKeepsKeys r hr).sameKeys h), row_decodeWord_match r hr]

/-- Settles O54: what the decoder answers fits its row, and a row that fits is the row of what the decoder answers. -/
theorem decoderFollowsTheOpcodeTable : Obligations.DecoderFollowsTheOpcodeTable := by
  refine ⟨fun w i h => ⟨fitsRow_of_decodeWord h, maskMatch_mem_opcodeRows i⟩, fun w => ⟨?_, fun noRow => ?_⟩, ?_⟩
  · intro h r hr fits
    have := row_decodeWord_of_fits hr fits
    rw [h] at this
    cases this
  · cases h : decodeWord w with
    | unmapped => rfl
    | instr i => exact absurd (fitsRow_of_decodeWord h) (noRow _ (maskMatch_mem_opcodeRows i))
  · intro w r₁ h₁ r₂ h₂ fits₁ fits₂
    exact Option.some.inj ((row_decodeWord_of_fits h₁ fits₁).symm.trans (row_decodeWord_of_fits h₂ fits₂))

end Sys2Proof
end

section
/-! The Cycle of an unmapped word (30_encoding.md R93, 40_cycle.md R105). -/
namespace Sys2Proof.Machine

theorem fetch_of_readByte {s : State} {hi lo : Byte} (aligned : ¬(s.cfg.pcAlign = .fault ∧ s.pc.toNat % 2 = 1))
    (hhi : s.readByte s.pc.toNat = some hi) (hlo : s.readByte (s.pc.toNat + 1) = some lo) :
    s.fetch = .ok (hi ++ lo) := by
  rw [State.fetch, if_neg aligned, hhi, hlo]
  rfl

/-- A running block that fetches an unmapped word counts it and runs the timer step. -/
theorem step_of_unmapped {s : State} {op : Word} (hh : s.halted = false) (hf : s.fetch = .ok op)
    (hd : decodeWord op = .unmapped) : step s = .next ((s.beginCycle.enterExecute op).countUnmapped).finishCycle := by
  have hf' : s.beginCycle.fetch = .ok op := hf
  rw [step, if_neg (by simp [hh]), hf']
  simp only [hd]

/-- The timer step in natural numbers: one lower, or 0 (R106). -/
theorem tick_toNat (b : Byte) : (tick b).toNat = b.toNat - 1 := by
  unfold tick
  split <;> bv_omega

/-- Settles O9: the Cycle of a counted no-op, read field by field. -/
theorem unmappedWordIsACountedNoOp : Obligations.UnmappedWordIsACountedNoOp := by
  intro s hi lo running aligned hhi hlo unmapped
  refine ⟨_, step_of_unmapped running (fetch_of_readByte aligned hhi hlo) unmapped, rfl, rfl, rfl, rfl, rfl,
    fun a => readByte_congr rfl rfl a, fun _ _ => rfl, tick_toNat s.dt, tick_toNat s.st, ?_, rfl, running,
    rfl, rfl, rfl, rfl, rfl, rfl⟩
  simp [BitVec.toNat_add]

end Sys2Proof.Machine
end

section
/-! The Cycle's own rules (40_cycle.md R101, R105 to R107): the fetch, the timer step, the unknown-opcode accounting and
the STEP on a halted block. -/
namespace Sys2Proof.Machine

/-- A Cycle of a running block whose fetch gave `op`: the counted no-op; an instruction that takes a fault; or one that
does not, after which UNK_STROBE is 0 and the timers step. -/
theorem step_fetched_cases {s t : State} {op : Word} (running : s.halted = false) (fetched : s.fetch = .ok op)
    (h : step s = .next t) :
    (decodeWord op = .unmapped ∧ t = ((s.beginCycle.enterExecute op).countUnmapped).finishCycle) ∨
    (∃ i r, decodeWord op = .instr i ∧ exec i (s.beginCycle.enterExecute op) = .next r ∧
      ((∃ c n, t = (s.beginCycle.enterExecute op).raise c n) ∨
       (KeepsControl (s.beginCycle.enterExecute op) r ∧ t = ({ r with unkStrobe := false } : State).finishCycle))) := by
  rcases step_running_cases running h with
    ⟨c, n, hf, -⟩ | ⟨op', hf, hd, rfl⟩ | ⟨op', i, r, hf, hd, he, outcome⟩ <;> rw [fetched] at hf <;> cases hf
  · exact .inl ⟨hd, rfl⟩
  · rcases outcome with ⟨c, n, hr, rfl⟩ | completed
    · exact .inr ⟨i, t, hd, he, .inl ⟨c, n, hr⟩⟩
    · exact .inr ⟨i, r, hd, he, .inr completed⟩

/-! ### The timer step -/

/-- A Cycle that takes no fault steps each timer once, from the value Execute left (R106). -/
theorem timers_of_step {s t : State} {op : Word} (running : s.halted = false) (fetched : s.fetch = .ok op)
    (h : step s = .next t) (noFault : t.halted = false) :
    (decodeWord op = .unmapped ∧ t.dt = tick s.dt ∧ t.st = tick s.st) ∨
    (∃ i r, decodeWord op = .instr i ∧ exec i (s.beginCycle.enterExecute op) = .next r ∧
      t.dt = tick r.dt ∧ t.st = tick r.st) := by
  rcases step_fetched_cases running fetched h with ⟨hd, rfl⟩ | ⟨i, r, hd, he, ⟨c, n, rfl⟩ | ⟨-, rfl⟩⟩
  · exact .inl ⟨hd, rfl, rfl⟩
  · exact absurd noFault (by simp)
  · exact .inr ⟨i, r, hd, he, rfl, rfl⟩

/-- The delay timer as Execute leaves it: Vx after LD DT, Vx, and the old value after any other instruction. -/
theorem dt_of_exec {i : Instr} {s r : State} (he : exec i s = .next r) :
    (∀ x, i = .ldDt x → r.dt = s.reg x) ∧ ((∀ x, i ≠ .ldDt x) → r.dt = s.dt) := by
  obtain ⟨-, -, -, -, keepsDt, -, -⟩ := exec_writers i s r he
  refine ⟨?_, keepsDt⟩
  rintro x rfl
  cases he
  rfl

/-- The sound timer as Execute leaves it: Vx after LD ST, Vx, and the old value after any other instruction. -/
theorem st_of_exec {i : Instr} {s r : State} (he : exec i s = .next r) :
    (∀ x, i = .ldSt x → r.st = s.reg x) ∧ ((∀ x, i ≠ .ldSt x) → r.st = s.st) := by
  obtain ⟨-, -, -, -, -, keepsSt, -⟩ := exec_writers i s r he
  refine ⟨?_, keepsSt⟩
  rintro x rfl
  cases he
  rfl

/-- Settles O14: the timer step takes the values Execute left, and LD DT and LD ST alone write them. -/
theorem timersStepOnceInEveryCycle : Obligations.TimersStepOnceInEveryCycle := by
  intro s t word running fetched stepped noFault
  rcases timers_of_step running fetched stepped noFault with ⟨hd, hdt, hst⟩ | ⟨i, r, hd, he, hdt, hst⟩
  · simp [hd, hdt, hst, tick_toNat]
  · obtain ⟨dtWritten, dtKept⟩ := dt_of_exec he
    obtain ⟨stWritten, stKept⟩ := st_of_exec he
    simp only [hd, hdt, hst, tick_toNat, Decoded.instr.injEq, ne_eq]
    refine ⟨fun x hx => ?_, fun hx => ?_, fun x hx => ?_, fun hx => ?_⟩
    · rw [dtWritten x hx]; rfl
    · rw [dtKept hx]; rfl
    · rw [stWritten x hx]; rfl
    · rw [stKept hx]; rfl

/-! ### The unknown-opcode accounting -/

/-- Settles O15: of the three ways a Cycle with a fetched word ends, only the counted no-op touches UNKCNT or sets
UNK_STROBE. -/
theorem unknownOpcodesAreCounted : Obligations.UnknownOpcodesAreCounted := by
  intro s t word running fetched stepped
  rcases step_fetched_cases running fetched stepped with ⟨hd, rfl⟩ | ⟨i, r, hd, -, ⟨c, n, rfl⟩ | ⟨keeps, rfl⟩⟩
  · simp [hd, BitVec.toNat_add]
  · simp [hd]
  · obtain ⟨-, -, -, -, -, keepsCount, -⟩ := keeps
    simp [hd, keepsCount]

/-! ### A halted block -/

/-- A STEP on a halted block (R107). -/
theorem step_of_halted {s : State} (halted : s.halted = true) : step s = .next s.haltedStep := by
  rw [step, if_pos halted]

/-- An accepted LOAD changes memory and closes LOAD's window, and nothing else (70_reset_and_hazards.md R255). -/
theorem load_eq {s t : State} {image : List Byte} (h : s.load image = .next t) :
    t = { s with mem := t.mem, loadOpen := false } := by
  unfold State.load at h
  split at h
  · split at h
    · split at h
      · rename_i u stored
        cases h
        rw [storeBytes_eq s u 0x200 image stored]
      · cases h
    · cases h
  · cases h

/-- Settles O10: a STEP is the halted step, RESET answers the reset state, and LOAD and a write of KEY leave the fault
record alone. -/
theorem haltedBlockOnlyLeavesByReset : Obligations.HaltedBlockOnlyLeavesByReset := by
  intro s halted
  refine ⟨step_of_halted halted, ⟨s.resetMove, rfl, rfl, rfl, rfl, rfl, rfl⟩, fun m t moved notReset => ?_⟩
  cases m with
  | reset => exact absurd rfl notReset
  | load image =>
    rw [load_eq moved]
    exact ⟨halted, rfl, rfl, rfl, rfl⟩
  | writeKey levels =>
    cases moved
    exact ⟨halted, rfl, rfl, rfl, rfl⟩
  | step rnd =>
    have stepped := step_of_halted (s := { s with rndIn := [rnd] }) halted
    cases stepped.symm.trans moved
    exact ⟨halted, rfl, rfl, rfl, rfl⟩

/-! ### The fetch -/

/-- The byte at the lower address is the high byte of the word (20_memory.md R64). -/
theorem wordOfBytes_toNat (hi lo : Byte) : (wordOfBytes hi lo).toNat = hi.toNat * 256 + lo.toNat := by
  rw [wordOfBytes, BitVec.toNat_append, ← Nat.shiftLeft_add_eq_or_of_lt lo.isLt, Nat.shiftLeft_eq]

/-- Settles O11: the three outcomes of the fetch, each by its lemma, with the word read as a number. -/
theorem fetchChecksThenReadsBigEndian : Obligations.FetchChecksThenReadsBigEndian := by
  intro s
  refine ⟨fun strict odd => fetch_misaligned s ⟨strict, odd⟩,
    fun aligned outside => fetch_outOfBounds s aligned (by omega), fun aligned inside => ?_⟩
  exact ⟨_, _, _, readByte_of_lt s (by omega), readByte_of_lt s (by omega), fetch_inBounds s aligned (by omega),
    wordOfBytes_toNat _ _⟩

end Sys2Proof.Machine
end

section
/-! Control flow (41_control_flow.md R121 to R127): encodings read off the decoder's keys, the two outcomes of CALL and
of RET, and the skip on a condition. -/
namespace Sys2Proof.Machine

/-! ### Encodings by the keys their mask keeps -/

/-- The mask 0xF000 keeps the primary key. -/
theorem encoded_of_fieldP {fixed : Word} {build : Word → Instr}
    (decoded : ∀ w, fieldP w = fieldP fixed → decodeWord w = .instr (build w)) : Encoded 0xF000 fixed build :=
  fun w fits => decoded w (fieldP_of_and fits rfl)

/-- The mask 0xF00F keeps the primary key and the low nibble. -/
theorem encoded_of_fieldP_fieldLow {fixed : Word} {build : Word → Instr}
    (decoded : ∀ w, fieldP w = fieldP fixed → fieldLow w = fieldLow fixed → decodeWord w = .instr (build w)) :
    Encoded 0xF00F fixed build :=
  fun w fits => decoded w (fieldP_of_and fits rfl) (fieldLow_of_and fits rfl)

/-! ### The operand and the frames -/

@[simp] theorem zextNNN_toNat (nnn : Addr12) : (zextNNN nnn).toNat = nnn.toNat :=
  BitVec.toNat_setWidth_of_le (by decide)

theorem frame_stack (s : State) (stack : Vector Word 16) (sp : Fin 17) (pc : Word) :
    Frame { stack := true } s { s with stack := stack, sp := sp, pc := pc } :=
  ⟨fun _ _ => rfl, fun _ => rfl, fun locked => Bool.noConfusion locked, fun _ => rfl, fun _ => rfl, fun _ _ _ => rfl,
    fun a _ => readByte_congr rfl rfl a, keepsControl_of_eq _ rfl⟩

/-! ### JP -/

/-- Settles O17: JP replaces pc by NNN, widened. -/
theorem jumpReplacesPc : Obligations.JumpReplacesPc :=
  ⟨encoded_of_fieldP fun w key => by rw [decodeWord, key]; rfl,
    fun s nnn => ⟨_, rfl, zextNNN_toNat nnn, frame_pc s _⟩⟩

/-! ### CALL -/

theorem exec_call_of_room {s : State} (nnn : Addr12) (room : s.sp.val < 16) :
    exec (.call nnn) s =
      .next { s with stack := s.stack.set s.sp.val s.pc, sp := ⟨s.sp.val + 1, by omega⟩, pc := zextNNN nnn } :=
  dif_pos room

theorem exec_call_of_full {s : State} (nnn : Addr12) (full : s.sp.val = 16) :
    exec (.call nnn) s = .next (s.raise .stackOverflow 16) :=
  dif_neg (by omega)

/-- Settles O18: with room the pushed entry is the one at SP, and on a full stack CALL raises STACK_OVERFLOW. -/
theorem callPushesTheReturnAddress : Obligations.CallPushesTheReturnAddress := by
  refine ⟨encoded_of_fieldP fun w key => by rw [decodeWord, key]; rfl,
    fun s nnn => ⟨fun notFull => ?_, fun full => ?_⟩⟩
  · have room : s.sp.val < 16 := by omega
    refine ⟨_, exec_call_of_room nnn room, rfl, zextNNN_toNat nnn, fun k => ?_, frame_stack s _ _ _⟩
    simp only [Vector.getElem_set, eq_comm]
  · exact ⟨_, exec_call_of_full nnn full, takesFault_raise s .stackOverflow rfl⟩

/-! ### RET -/

theorem exec_ret_of_pushed {s : State} {k : Fin 16} (pushed : s.sp.val = k.val + 1) :
    exec .ret s = .next { s with sp := k.castSucc, pc := s.stack[k.val] } := by
  have top : s.sp = k.succ := Fin.ext pushed
  rw [exec, execRet, top]
  rfl

theorem exec_ret_of_empty {s : State} (empty : s.sp.val = 0) : exec .ret s = .next (s.raise .stackUnderflow 0) := by
  have bottom : s.sp = 0 := Fin.ext empty
  rw [exec, execRet, bottom]

/-- Settles O19: RET pops the entry below SP into pc, and on an empty stack it raises STACK_UNDERFLOW. -/
theorem returnPopsIntoPc : Obligations.ReturnPopsIntoPc := by
  refine ⟨encoded_of_fieldP_fieldLow fun w key low => by rw [decodeWord, key, decode0, low]; rfl,
    fun s => ⟨fun k pushed => ?_, fun empty => ?_⟩⟩
  · exact ⟨_, exec_ret_of_pushed pushed, rfl, rfl, rfl, frame_stack s _ _ _⟩
  · exact ⟨_, exec_ret_of_empty empty, takesFault_raise s .stackUnderflow rfl⟩

/-! ### The register skips -/

theorem skipIf_decide_pc (s : State) (p : Prop) [Decidable p] :
    (s.skipIf (decide p)).pc = if p then s.pc + 2 else s.pc := by
  by_cases h : p <;> simp [State.skipIf, h]

theorem skipIf_decide_not_pc (s : State) (p : Prop) [Decidable p] :
    (s.skipIf (decide ¬p)).pc = if p then s.pc else s.pc + 2 := by
  rw [skipIf_decide_pc, ite_not]

/-- Settles O21: each of the four is skipIf on its condition, which moves pc only. -/
theorem registerSkipsAddTwoWhenTheConditionHolds : Obligations.RegisterSkipsAddTwoWhenTheConditionHolds := by
  refine ⟨?_, ?_, ?_, ?_, fun s x y nn => ⟨?_, ?_, ?_, ?_⟩⟩
  iterate 4 exact encoded_of_fieldP fun w key => by rw [decodeWord, key]; rfl
  · exact ⟨_, rfl, skipIf_decide_pc s _, frame_skipIf s _⟩
  · exact ⟨_, rfl, skipIf_decide_not_pc s _, frame_skipIf s _⟩
  · exact ⟨_, rfl, skipIf_decide_pc s _, frame_skipIf s _⟩
  · exact ⟨_, rfl, skipIf_decide_not_pc s _, frame_skipIf s _⟩

end Sys2Proof.Machine
end

section
/-! Moves and the ALU (42_moves_alu.md R140 to R152): the encodings of family 8, the write of result and flag, and each
operation's result and flag as natural numbers. -/
namespace Sys2Proof.Machine

/-! ### The encodings of family 8 -/

/-- In family 8 the low nibble alone picks the row (30_encoding.md R86). -/
theorem encoded_of_decode8 {fixed : Word} {build : Word → Instr} (family : fieldP fixed = 0x8#4)
    (decoded : ∀ w, fieldLow w = fieldLow fixed → decode8 w = .instr (build w)) : Encoded 0xF00F fixed build :=
  encoded_of_fieldP_fieldLow fun w key low => by rw [decodeWord, key, family]; exact decoded w low

/-! ### The write of result and flag -/

theorem flagByte_decide (p : Prop) [Decidable p] : flagByte (decide p) = if p then 1 else 0 := by
  simp only [flagByte, decide_eq_true_eq]

theorem frame_writeRF (s : State) (x : Reg) (r : Byte) (f : Bool) :
    Frame { regs := [x, VF] } s (s.writeRF x r f) := by
  refine ⟨fun y outside => ?_, ?_⟩
  · obtain ⟨notX, notVF⟩ : y ≠ x ∧ y ≠ VF := by simpa using outside
    simp [reg_writeRF, notX, notVF]
  · rw [writeRF_eq]
    exact ⟨fun _ => rfl, fun _ => ⟨rfl, rfl⟩, fun _ => rfl, fun _ => rfl, fun _ _ _ => rfl,
      fun a _ => readByte_congr rfl rfl a, keepsControl_of_eq _ rfl⟩

/-- WriteRF leaves what R140 says, in both orders. -/
theorem writesResultAndFlag_writeRF (s : State) (x : Reg) (r : Byte) (f : Bool) :
    WritesResultAndFlag s (s.writeRF x r f) x r (flagByte f) := by
  refine ⟨fun notVF => ⟨?_, ?_⟩, ?_, ?_, by rw [writeRF_eq], frame_writeRF s x r f⟩
  · simp [reg_writeRF, notVF]
  · simp [reg_writeRF, notVF.symm]
  · rintro rfl flagLast
    simp [reg_writeRF, flagLast]
  · rintro rfl resultLast
    simp [reg_writeRF, resultLast]

/-- WriteRF with a flag that is 1 exactly when `p` holds. -/
theorem writesResultAndFlag_decide (s : State) (x : Reg) (r : Byte) (p : Prop) [Decidable p] :
    WritesResultAndFlag s (s.writeRF x r (decide p)) x r (if p then 1 else 0) :=
  flagByte_decide p ▸ writesResultAndFlag_writeRF s x r (decide p)

/-! ### The moves -/

/-- Settles O23: each move is one register write, and the frame is that of setReg. -/
theorem movesWriteOneRegister : Obligations.MovesWriteOneRegister := by
  refine ⟨encoded_of_fieldP fun w key => by rw [decodeWord, key]; rfl,
    encoded_of_fieldP fun w key => by rw [decodeWord, key]; rfl,
    encoded_of_decode8 rfl fun w low => by rw [decode8, low]; rfl, fun s x y nn => ⟨?_, ?_, ?_⟩⟩
  · exact ⟨_, rfl, reg_setReg_self s x nn, rfl, frame_setReg s x nn⟩
  · refine ⟨_, rfl, ?_, rfl, frame_setReg s x _⟩
    rw [reg_setReg_self, BitVec.toNat_add]
  · exact ⟨_, rfl, reg_setReg_self s x _, rfl, frame_setReg s x _⟩

/-! ### The bitwise operations -/

/-- Settles O24: each operation writes Vx alone, and its bits are read off the library's bit lemmas. -/
theorem bitwiseOperationsHaveNoFlag : Obligations.BitwiseOperationsHaveNoFlag := by
  refine ⟨?_, ?_, ?_, fun s x y => ⟨?_, ?_, ?_⟩⟩
  iterate 3 exact encoded_of_decode8 rfl fun w low => by rw [decode8, low]; rfl
  · exact ⟨_, rfl, fun k => by rw [reg_setReg_self, BitVec.getLsbD_or], rfl, frame_setReg s x _⟩
  · exact ⟨_, rfl, fun k => by rw [reg_setReg_self, BitVec.getLsbD_and], rfl, frame_setReg s x _⟩
  · exact ⟨_, rfl, fun k => by rw [reg_setReg_self, BitVec.getLsbD_xor], rfl, frame_setReg s x _⟩

/-! ### The sum and the differences -/

/-- Settles O25: the sum modulo 256 with the carry of the 9-bit sum, by WriteRF. -/
theorem addSetsCarry : Obligations.AddSetsCarry :=
  ⟨encoded_of_decode8 rfl fun w low => by rw [decode8, low]; rfl,
    fun s x y => ⟨_, _, rfl, BitVec.toNat_add _ _, writesResultAndFlag_decide s x _ _⟩⟩

/-- The difference of two bytes modulo 256, the minuend first. -/
theorem toNat_byte_sub (a b : Byte) : (a - b).toNat = (a.toNat + 256 - b.toNat) % 256 := by bv_omega

/-- Settles O26: SUBN is SUB with the operands exchanged, and both write by WriteRF. -/
theorem subtractsSetStrictlyGreaterFlag : Obligations.SubtractsSetStrictlyGreaterFlag := by
  refine ⟨?_, ?_, fun s x y => ⟨?_, ?_⟩⟩
  iterate 2 exact encoded_of_decode8 rfl fun w low => by rw [decode8, low]; rfl
  · exact ⟨_, _, rfl, toNat_byte_sub _ _, writesResultAndFlag_decide s x _ _⟩
  · exact ⟨_, _, rfl, toNat_byte_sub _ _, writesResultAndFlag_decide s x _ _⟩

/-! ### The shifts -/

/-- The operand is the byte SHIFT_SOURCE names (R150). -/
theorem shiftOperand_eq {s : State} {x y : Reg} {src : Byte} (fromVx : s.cfg.shiftSource = .vx → src = s.reg x)
    (fromVy : s.cfg.shiftSource = .vy → src = s.reg y) : shiftOperand s x y = src := by
  unfold shiftOperand
  split
  · exact (fromVx ‹_›).symm
  · exact (fromVy ‹_›).symm

theorem lowBitFlag_eq (a : Byte) : lowBitFlag a = decide (a.toNat % 2 = 1) := by
  rw [lowBitFlag, BitVec.getLsbD, Nat.testBit_zero]

theorem highBitFlag_eq (a : Byte) : highBitFlag a = decide (a.toNat ≥ 128) :=
  BitVec.msb_eq_decide a

theorem exec_shr (x y : Reg) (s : State) : exec (.shr x y) s =
    .next (s.writeRF x (shiftOperand s x y >>> 1) (decide ((shiftOperand s x y).toNat % 2 = 1))) := by
  rw [exec, execShr, lowBitFlag_eq]

theorem exec_shl (x y : Reg) (s : State) : exec (.shl x y) s =
    .next (s.writeRF x (shiftOperand s x y <<< 1) (decide ((shiftOperand s x y).toNat ≥ 128))) := by
  rw [exec, execShl, highBitFlag_eq]

/-- Settles O27: the premises fix the operand, the shifts are div 2 and times 2, and both write by WriteRF. -/
theorem shiftsSetTheBitShiftedOut : Obligations.ShiftsSetTheBitShiftedOut := by
  refine ⟨?_, ?_, fun s x y src fromVx fromVy => ?_⟩
  iterate 2 exact encoded_of_decode8 rfl fun w low => by rw [decode8, low]; rfl
  rw [exec_shr, exec_shl, shiftOperand_eq fromVx fromVy]
  refine ⟨⟨_, _, rfl, ?_, writesResultAndFlag_decide s x _ _⟩, ⟨_, _, rfl, ?_, writesResultAndFlag_decide s x _ _⟩⟩
  · rw [BitVec.toNat_ushiftRight, Nat.shiftRight_one]
  · rw [BitVec.toNat_shiftLeft, Nat.shiftLeft_eq, pow_one]

end Sys2Proof.Machine
end

section
/-! The index register, the indexed jump and the random byte (43_index_random.md R170 to R173, 46_memory_transfer.md
R203): operands as natural numbers, the encodings of family F, and RND as a whole Cycle. -/
namespace Sys2Proof.Machine

/-! ### The indexed jump -/

/-- NNN + V0 is at most 0x10FE, so the 16-bit sum does not wrap (R171). -/
theorem indexedTarget_toNat (s : State) (nnn : Addr12) :
    (indexedTarget s nnn).toNat = nnn.toNat + (s.reg 0).toNat := by
  have noWrap : nnn.toNat + (s.reg 0).toNat < 2 ^ 16 := by omega
  rw [indexedTarget, BitVec.toNat_add, zextNNN_toNat, BitVec.toNat_setWidth_of_le (by decide), Nat.mod_eq_of_lt noWrap]

/-- Settles O22: JP V0, NNN replaces pc alone, by a target that does not wrap. -/
theorem indexedJumpAddsV0 : Obligations.IndexedJumpAddsV0 :=
  ⟨encoded_of_fieldP fun w key => by rw [decodeWord, key]; rfl,
    fun s nnn => ⟨_, rfl, indexedTarget_toNat s nnn, frame_pc s _⟩⟩

/-! ### The index register -/

/-- In family F the low byte alone picks the row (30_encoding.md R88). -/
theorem encoded_of_decodeF {fixed : Word} {build : Word → Instr} (family : fieldP fixed = 0xF#4)
    (decoded : ∀ w, fieldNN w = fieldNN fixed → decodeF w = .instr (build w)) : Encoded 0xF0FF fixed build :=
  fun w fits => by
    rw [decodeWord, fieldP_of_and fits rfl, family]
    exact decoded w (fieldNN_of_and fits rfl)

/-- 0x50 + 5*Vx is at most 0x54B, so it fits the 16 bits of I (R203). -/
theorem glyphAddress_toNat (b : Byte) : (glyphAddress b).toNat = 0x50 + 5 * b.toNat := by
  have fits : 0x50 + 5 * b.toNat < 2 ^ 16 := by omega
  rw [glyphAddress, BitVec.toNat_ofNat, Nat.mod_eq_of_lt fits]

/-- Settles O28: each of the three writes I alone, and its value is read as a natural number. -/
theorem indexInstructionsWriteOnlyI : Obligations.IndexInstructionsWriteOnlyI := by
  refine ⟨encoded_of_fieldP fun w key => by rw [decodeWord, key]; rfl,
    encoded_of_decodeF rfl fun w byte => by rw [decodeF, byte]; rfl,
    encoded_of_decodeF rfl fun w byte => by rw [decodeF, byte]; rfl, fun s x nnn => ⟨?_, ?_, ?_⟩⟩
  · exact ⟨_, rfl, zextNNN_toNat nnn, rfl, frame_index s _⟩
  · refine ⟨_, rfl, ?_, rfl, frame_index s _⟩
    rw [BitVec.toNat_add, BitVec.toNat_setWidth_of_le (by decide)]
  · exact ⟨_, rfl, glyphAddress_toNat (s.reg x), rfl, frame_index s _⟩

/-! ### The random byte -/

theorem rndByte_of_cons {s : State} {b : Byte} {rest : List Byte} (supplied : s.rndIn = b :: rest) : s.rndByte = b := by
  rw [State.rndByte, supplied]

theorem rndByte_of_nil {s : State} (unsupplied : s.rndIn = []) : s.rndByte = Config.freeRnd s.rndCount := by
  rw [State.rndByte, unsupplied]

/-- Every word CXNN is RND (R173). -/
theorem encoded_rnd : Encoded 0xF000 0xC000 (fun w => .rnd (fieldX w) (fieldNN w)) :=
  encoded_of_fieldP fun w key => by rw [decodeWord, key]; rfl

/-- After Execute without a fault, the Cycle is completed by the timer step with UNK_STROBE 0 (40_cycle.md R105,
R106). -/
theorem completeCycle_of_running {r : State} (running : r.halted = false) :
    r.completeCycle = ({ r with unkStrobe := false } : State).finishCycle :=
  if_neg (by simp [running])

/-- The Cycle of a running block that fetches RND Vx, NN: the masked byte is written, then the Cycle is finished. -/
theorem step_of_rnd {s : State} {op : Word} {x : Reg} {nn : Byte} (running : s.halted = false)
    (fetched : s.fetch = .ok op) (decoded : decodeWord op = .instr (.rnd x nn)) :
    step s = .next
      ({ (s.beginCycle.enterExecute op).setReg x (s.rndByte &&& nn) with unkStrobe := false } : State).finishCycle := by
  rw [step_of_instr running fetched decoded rfl, completeCycle_of_running (by simpa using running)]
  rfl

/-- Settles O29: RND writes Vx alone, with the byte on the port masked; the host's STEP with b puts b on the port. -/
theorem randomByteIsMasked : Obligations.RandomByteIsMasked := by
  refine ⟨encoded_rnd, fun s x nn => ?_, fun s b word running fetched fits => ?_⟩
  · refine ⟨_, rfl, fun b rest supplied => ?_, fun unsupplied => ?_, rfl, frame_setReg s x _⟩
    · rw [reg_setReg_self, rndByte_of_cons supplied]
    · rw [reg_setReg_self, rndByte_of_nil unsupplied]
  · have stepped := step_of_rnd (s := { s with rndIn := [b] }) running fetched (encoded_rnd word fits)
    exact ⟨_, stepped, reg_setReg_self _ _ _, fun r other => reg_setReg_of_ne _ _ other, rfl⟩

end Sys2Proof.Machine
end

section
/-! The framebuffer (44_framebuffer.md R180, R181): the pixels of the draw loop are those SpriteCovers names, the two
outcomes of DRW, and CLS. -/
namespace Sys2Proof.Machine

/-! ### The sprite's pixels, as SpriteCovers names them -/

/-- Column x holds a pixel of a row iff one of the row's eight bits is set and lands there. -/
theorem rowBit_iff {x0 x : Nat} (hx0 : x0 < 64) (hx : x < 64) (b : Byte) :
    rowBit x0 b x = true ↔ ∃ c, c < 8 ∧ b.getLsbD (7 - c) = true ∧ x = (x0 + c) % 64 := by
  simp only [rowBit, Bool.and_eq_true, decide_eq_true_eq]
  constructor
  · rintro ⟨inRow, isSet⟩
    exact ⟨_, inRow, isSet, by omega⟩
  · rintro ⟨c, inRow, isSet, lands⟩
    obtain rfl : (x + 64 - x0) % 64 = c := by omega
    exact ⟨inRow, isSet⟩

theorem not_spriteCovers_nil (x0 y0 x y : Nat) : ¬SpriteCovers [] x0 y0 x y := by
  rintro ⟨r, c, b, row, -⟩
  cases row

/-- A sprite covers what its first row covers and what its other rows cover, drawn one row lower. -/
theorem spriteCovers_cons (b : Byte) (bs : List Byte) (x0 y0 x y : Nat) :
    SpriteCovers (b :: bs) x0 y0 x y ↔
      (y = y0 % 32 ∧ ∃ c, c < 8 ∧ b.getLsbD (7 - c) = true ∧ x = (x0 + c) % 64) ∨
      SpriteCovers bs x0 (y0 + 1) x y := by
  constructor
  · rintro ⟨r, c, b', row, inRow, isSet, hx, hy⟩
    cases r with
    | zero =>
      obtain rfl : b = b' := by simpa using row
      exact .inl ⟨hy, c, inRow, isSet, hx⟩
    | succ r => exact .inr ⟨r, c, b', row, inRow, isSet, hx, by omega⟩
  · rintro (⟨hy, c, inRow, isSet, hx⟩ | ⟨r, c, b', row, inRow, isSet, hx, hy⟩)
    · exact ⟨0, c, b, rfl, inRow, isSet, hx, hy⟩
    · exact ⟨r + 1, c, b', row, inRow, isSet, hx, by omega⟩

/-- The closed form of the draw loop draws exactly the pixels SpriteCovers names. -/
theorem rowsBit_iff_spriteCovers {x0 x : Nat} (hx0 : x0 < 64) (hx : x < 64) (bs : List Byte) (y0 y : Nat) :
    rowsBit x0 y0 bs x y = true ↔ SpriteCovers bs x0 y0 x y := by
  induction bs generalizing y0 with
  | nil => exact iff_of_false Bool.false_ne_true (not_spriteCovers_nil x0 y0 x y)
  | cons b bs ih =>
    rw [spriteCovers_cons, rowsBit, Bool.or_eq_true, Bool.and_eq_true, decide_eq_true_eq, rowBit_iff hx0 hx, ih]

/-- A draw from a clear flag records a collision iff the sprite covers a cell that was on. -/
theorem drawRows_collision_iff {x0 : Nat} (hx0 : x0 < 64) (y0 : Nat) {sprite : List Byte} (short : sprite.length ≤ 32)
    (fb : Vector (BitVec 64) 32) :
    (Fb.drawRows x0 y0 sprite (fb, false)).2 = true ↔
      ∃ x y, x < 64 ∧ y < 32 ∧ Fb.cell fb x y = true ∧ SpriteCovers sprite x0 y0 x y := by
  rw [(drawRows_spec x0 y0 sprite hx0 short _).2, or_iff_right Bool.false_ne_true]
  refine exists₂_congr fun x y => and_congr_right fun hx => and_congr_right fun _ => ?_
  rw [rowsBit_iff_spriteCovers hx0 hx, and_comm]

/-- A draw inverts the cells the sprite covers and keeps the others. -/
theorem cell_drawRows {x0 x y : Nat} (hx0 : x0 < 64) (y0 : Nat) {sprite : List Byte} (short : sprite.length ≤ 32)
    (fb : Vector (BitVec 64) 32) (hx : x < 64) (hy : y < 32) :
    (SpriteCovers sprite x0 y0 x y → Fb.cell (Fb.drawRows x0 y0 sprite (fb, false)).1 x y = !Fb.cell fb x y) ∧
    (¬SpriteCovers sprite x0 y0 x y → Fb.cell (Fb.drawRows x0 y0 sprite (fb, false)).1 x y = Fb.cell fb x y) := by
  rw [(drawRows_spec x0 y0 sprite hx0 short _).1 x y hx hy, ← rowsBit_iff_spriteCovers hx0 hx]
  cases rowsBit x0 y0 sprite x y <;> simp

/-! ### The outcomes of DRW -/

/-- A list whose bytes are those read at a, a+1, … is what loadBytes answers. -/
theorem loadBytes_of_readByte {s : State} {a : Nat} {bs : List Byte}
    (read : ∀ r (h : r < bs.length), s.readByte (a + r) = some bs[r]) : s.loadBytes a bs.length = some bs := by
  induction bs generalizing a with
  | nil => rfl
  | cons b bs ih =>
    have first : s.readByte a = some b := read 0 (by simp)
    have others : s.loadBytes (a + 1) bs.length = some bs := ih fun r h => by
      rw [Nat.add_assoc, Nat.add_comm 1]
      exact read (r + 1) (by simpa using h)
    rw [List.length_cons, State.loadBytes, first, others]

theorem exec_drw_of_loaded {s : State} {n : Fin 16} {sprite : List Byte} (x y : Reg)
    (loaded : s.loadBytes s.i.toNat n.val = some sprite) :
    exec (.drw x y n) s =
      .next (({ s with fb := (Fb.drawRows ((s.reg x).toNat % 64) ((s.reg y).toNat % 32) sprite (s.fb, false)).1 }
        : State).setReg VF
          (flagByte (Fb.drawRows ((s.reg x).toNat % 64) ((s.reg y).toNat % 32) sprite (s.fb, false)).2)) := by
  rw [exec, execDrw, loaded]

theorem exec_drw_of_outOfRange {s : State} {n : Fin 16} (x y : Reg) (rows : n.val > 0)
    (beyond : s.i.toNat + n.val - 1 > 4095) :
    exec (.drw x y n) s = .next (s.raise .memBounds s.memFaultInfo) := by
  rw [exec, execDrw, loadBytes_outOfRange s _ _ (by omega) (by omega)]

theorem frame_drawn (s : State) (fb : Vector (BitVec 64) 32) (f : Byte) :
    Frame { regs := [VF], screen := true } s (({ s with fb := fb } : State).setReg VF f) :=
  ⟨fun _ other => reg_setReg_of_ne _ f (by simpa using other), fun _ => rfl, fun _ => ⟨rfl, rfl⟩, fun _ => rfl,
    fun _ => rfl, fun locked => Bool.noConfusion locked, fun a _ => readByte_congr rfl rfl a,
    keepsControl_of_eq _ rfl⟩

/-- Settles O31: the sprite in range is the one loadBytes answers, and the draw loop's closed form gives each cell and
the collision flag; out of range, DRW raises MEM_BOUNDS. -/
theorem drawXorsTheSpriteAndReportsCollision : Obligations.DrawXorsTheSpriteAndReportsCollision := by
  refine ⟨encoded_of_fieldP fun w key => by rw [decodeWord, key]; rfl,
    fun s x y n => ⟨fun sprite rows read => ?_, fun rows beyond => ?_⟩⟩
  · have short : sprite.length ≤ 32 := by omega
    have hx0 : (s.reg x).toNat % 64 < 64 := Nat.mod_lt _ (by decide)
    have collision := drawRows_collision_iff hx0 ((s.reg y).toNat % 32) short s.fb
    refine ⟨_, exec_drw_of_loaded x y (rows ▸ loadBytes_of_readByte read),
      fun cx cy hx hy => cell_drawRows hx0 _ short s.fb hx hy, fun hit => ?_, fun miss => ?_, rfl, frame_drawn s _ _⟩
    · rw [reg_setReg_self, collision.mpr hit]; rfl
    · rw [reg_setReg_self, Bool.eq_false_iff.mpr (mt collision.mp miss)]; rfl
  · exact ⟨_, exec_drw_of_outOfRange x y rows beyond, takesFault_raise s .memBounds (memFaultInfo_toNat s)⟩

/-! ### CLS -/

theorem frame_screen (s : State) (fb : Vector (BitVec 64) 32) : Frame { screen := true } s { s with fb := fb } :=
  ⟨fun _ _ => rfl, fun _ => rfl, fun _ => ⟨rfl, rfl⟩, fun _ => rfl, fun _ => rfl,
    fun locked => Bool.noConfusion locked, fun a _ => readByte_congr rfl rfl a, keepsControl_of_eq _ rfl⟩

/-- Settles O30: CLS writes the framebuffer alone, and every row it writes is 0. -/
theorem clearScreenTurnsEveryCellOff : Obligations.ClearScreenTurnsEveryCellOff :=
  ⟨encoded_of_fieldP_fieldLow fun w key low => by rw [decodeWord, key, decode0, low]; rfl,
    fun s => ⟨_, rfl, cell_replicate, rfl, frame_screen s _⟩⟩

end Sys2Proof.Machine
end

section
/-! Keys and timers (45_keys_timers.md R190 to R195): the two outcomes of the key skips and of the key wait, and the
instructions that move a timer. -/
namespace Sys2Proof.Machine

/-! ### The key skips -/

theorem skipIf_pc (s : State) (c : Bool) : (s.skipIf c).pc = if c then s.pc + 2 else s.pc :=
  apply_ite State.pc (c = true) s.skip s

theorem skipIf_not_pc (s : State) (c : Bool) : (s.skipIf (!c)).pc = if c then s.pc else s.pc + 2 := by
  cases c <;> rfl

theorem exec_skp_of_key {s : State} {x : Reg} (isKey : (s.reg x).toNat ≤ 15) :
    exec (.skp x) s = .next (s.skipIf (s.key.getLsbD (s.reg x).toNat)) :=
  if_neg (by omega)

theorem exec_skp_of_notKey {s : State} {x : Reg} (notKey : (s.reg x).toNat > 15) :
    exec (.skp x) s = .next (s.raise .keyIndex ((s.reg x).setWidth 17)) :=
  if_pos notKey

theorem exec_sknp_of_key {s : State} {x : Reg} (isKey : (s.reg x).toNat ≤ 15) :
    exec (.sknp x) s = .next (s.skipIf (!s.key.getLsbD (s.reg x).toNat)) :=
  if_neg (by omega)

theorem exec_sknp_of_notKey {s : State} {x : Reg} (notKey : (s.reg x).toNat > 15) :
    exec (.sknp x) s = .next (s.raise .keyIndex ((s.reg x).setWidth 17)) :=
  if_pos notKey

/-- KEY_INDEX reports Vx whole (60_exceptions.md R220). -/
theorem takesFault_keyIndex (s : State) (x : Reg) :
    TakesFault s (s.raise .keyIndex ((s.reg x).setWidth 17)) 6 (s.reg x).toNat :=
  takesFault_raise s .keyIndex (BitVec.toNat_setWidth_of_le (by decide))

/-- Settles O34: for Vx a key number both are skipIf on the key's sample, and for any other Vx both raise KEY_INDEX. -/
theorem keySkipsTestTheSample : Obligations.KeySkipsTestTheSample := by
  refine ⟨?_, ?_, fun s x => ⟨fun isKey => ⟨?_, ?_⟩, fun notKey => ⟨?_, ?_⟩⟩⟩
  iterate 2 exact encoded_of_fieldP_fieldLow fun w key low => by rw [decodeWord, key, decodeE, low]; rfl
  · exact ⟨_, exec_skp_of_key isKey, skipIf_pc s _, frame_skipIf s _⟩
  · exact ⟨_, exec_sknp_of_key isKey, skipIf_not_pc s _, frame_skipIf s _⟩
  · exact ⟨_, exec_skp_of_notKey notKey, takesFault_keyIndex s x⟩
  · exact ⟨_, exec_sknp_of_notKey notKey, takesFault_keyIndex s x⟩

/-! ### The key wait -/

/-- The lowest pressed key is the pressed one with no pressed key below it (R192). -/
theorem lowestKey_eq_some_iff {s : State} {k : Fin 16} :
    lowestKey s = some k.val ↔
      s.key.getLsbD k.val = true ∧ ∀ j : Fin 16, j < k → s.key.getLsbD j.val = false := by
  rw [lowestKey, List.find?_range_eq_some]
  constructor
  · rintro ⟨pressed, -, lowest⟩
    exact ⟨pressed, fun j below => by simpa [keyPressed] using lowest j below⟩
  · rintro ⟨pressed, lowest⟩
    exact ⟨pressed, List.mem_range.mpr k.isLt, fun j below => by
      simpa [keyPressed] using lowest ⟨j, by omega⟩ below⟩

theorem lowestKey_eq_none_iff {s : State} :
    lowestKey s = none ↔ ∀ k : Fin 16, s.key.getLsbD k.val = false := by
  simp only [lowestKey, List.find?_range_eq_none, Fin.forall_iff, keyPressed, Bool.not_eq_true']

theorem exec_ldVxK_of_lowest {s : State} {k : Nat} (x : Reg) (lowest : lowestKey s = some k) :
    exec (.ldVxK x) s = .next (s.setReg x (BitVec.ofNat 8 k)) := by
  rw [exec, execLdVxK, lowest]

theorem exec_ldVxK_of_none {s : State} (x : Reg) (released : lowestKey s = none) :
    exec (.ldVxK x) s = .next { s with pc := s.pc - 2 } := by
  rw [exec, execLdVxK, released]

/-- Settles O35: the premises name lowestKey's answer, which picks the register written or the pc moved back. -/
theorem keyWaitTakesTheLowestKeyOrRepeats : Obligations.KeyWaitTakesTheLowestKeyOrRepeats := by
  refine ⟨encoded_of_decodeF rfl fun w byte => by rw [decodeF, byte]; rfl,
    fun s x => ⟨fun k pressed lowest => ?_, fun released => ?_⟩⟩
  · refine ⟨_, exec_ldVxK_of_lowest x (lowestKey_eq_some_iff.mpr ⟨pressed, lowest⟩), ?_, rfl, frame_setReg s x _⟩
    rw [reg_setReg_self, BitVec.toNat_ofNat, Nat.mod_eq_of_lt (by omega)]
  · exact ⟨_, exec_ldVxK_of_none x (lowestKey_eq_none_iff.mpr released), rfl, frame_pc s _⟩

/-! ### The timers -/

theorem frame_delay (s : State) (b : Byte) : Frame { delay := true } s { s with dt := b } :=
  ⟨fun _ _ => rfl, fun _ => rfl, fun _ => ⟨rfl, rfl⟩, fun locked => Bool.noConfusion locked, fun _ => rfl,
    fun _ _ _ => rfl, fun a _ => readByte_congr rfl rfl a, keepsControl_of_eq _ rfl⟩

theorem frame_sound (s : State) (b : Byte) : Frame { sound := true } s { s with st := b } :=
  ⟨fun _ _ => rfl, fun _ => rfl, fun _ => ⟨rfl, rfl⟩, fun _ => rfl, fun locked => Bool.noConfusion locked,
    fun _ _ _ => rfl, fun a _ => readByte_congr rfl rfl a, keepsControl_of_eq _ rfl⟩

/-- Settles O36: each of the three writes one byte, a register or a timer, and its frame says so. -/
theorem timerInstructionsMoveOneByte : Obligations.TimerInstructionsMoveOneByte := by
  refine ⟨?_, ?_, ?_, fun s x => ⟨?_, ?_, ?_⟩⟩
  iterate 3 exact encoded_of_decodeF rfl fun w byte => by rw [decodeF, byte]; rfl
  · exact ⟨_, rfl, reg_setReg_self s x _, rfl, frame_setReg s x _⟩
  · exact ⟨_, rfl, rfl, rfl, frame_delay s _⟩
  · exact ⟨_, rfl, rfl, rfl, frame_sound s _⟩

end Sys2Proof.Machine
end

section
/-! The memory transfers (46_memory_transfer.md R200 to R202): what can be read after a store in range, what a load in
range has read, and the one fault of every access through I. -/
namespace Sys2Proof.Machine

/-! ### Accesses in range -/

/-- A store in range happens; each stored address then reads as its byte, and nothing else changes (20_memory.md R65,
R70). -/
theorem exists_storeBytes {s : State} {a : Nat} {bs : List Byte} (fits : a + bs.length ≤ 4096) :
    ∃ t, s.storeBytes a bs = some t ∧ (∀ k (h : k < bs.length), t.readByte (a + k) = some bs[k]) ∧
      t.pc = s.pc ∧ Frame { base := a, count := bs.length } s t := by
  obtain ⟨m, stored, inside, -, -⟩ := storeBytes_inRange s a bs (.inr fits)
  refine ⟨_, stored, fun k h => ?_, rfl, frame_storeBytes stored⟩
  rw [readByte_of_lt _ (by omega)]
  exact congrArg some (inside k h)

/-- In range, loadBytes answers the bytes read at a, a+1, …, one for each address. -/
theorem exists_loadBytes {s : State} {a n : Nat} (fits : a + n ≤ 4096) :
    ∃ bs, s.loadBytes a n = some bs ∧ bs.length = n ∧ ∀ k (h : k < bs.length), s.readByte (a + k) = some bs[k] := by
  refine ⟨_, loadBytes_inRange s a n (.inr fits), by simp, fun k h => ?_⟩
  rw [List.length_map, List.length_range] at h
  rw [readByte_of_lt s (by omega), List.getElem_map, List.getElem_range]

/-! ### The block of registers -/

theorem blockOf_length (s : State) (x : Reg) : (blockOf s x).length = x.val + 1 := by
  rw [blockOf, List.length_take, Vector.length_toList, Nat.min_eq_left x.isLt]

theorem blockOf_getElem {s : State} {x k : Reg} (h : k.val < (blockOf s x).length) :
    (blockOf s x)[k.val] = s.reg k := by
  simp only [blockOf, List.getElem_take, Vector.getElem_toList, State.reg]

theorem reg_setRegs_of_lt (s : State) {bs : List Byte} {k : Reg} (h : k.val < bs.length) :
    (s.setRegs bs).reg k = bs[k.val] := by
  rw [reg_setRegs, List.getElem?_eq_getElem h, Option.getD_some]

theorem reg_setRegs_of_ge (s : State) {bs : List Byte} {k : Reg} (h : bs.length ≤ k.val) :
    (s.setRegs bs).reg k = s.reg k := by
  rw [reg_setRegs, List.getElem?_eq_none h, Option.getD_none]

theorem keepsControl_setRegs (s : State) (bs : List Byte) : KeepsControl s (s.setRegs bs) :=
  ⟨setRegs_halted s bs, setRegs_faultCause s bs, setRegs_faultPc s bs, setRegs_faultOpcode s bs, setRegs_faultInfo s bs,
    setRegs_unkCnt s bs, setRegs_unkStrobe s bs, setRegs_op s bs, setRegs_key s bs, setRegs_rndIn s bs,
    setRegs_rndCount s bs, setRegs_loadOpen s bs, setRegs_cfg s bs⟩

theorem frame_setRegs (s : State) (bs : List Byte) : Frame { regs := List.finRange 16 } s (s.setRegs bs) :=
  ⟨fun r other => absurd (List.mem_finRange r) other, fun _ => setRegs_i s bs,
    fun _ => ⟨setRegs_sp s bs, setRegs_stack s bs⟩, fun _ => setRegs_dt s bs, fun _ => setRegs_st s bs,
    fun _ _ _ => congrArg (Fb.cell · _ _) (setRegs_fb s bs),
    fun a _ => readByte_congr (setRegs_mem s bs) (setRegs_cfg s bs) a, keepsControl_setRegs s bs⟩

/-! ### The outcomes -/

theorem exec_ldB_of_stored {s t : State} {x : Reg} (stored : s.storeBytes s.i.toNat (bcdDigits (s.reg x)) = some t) :
    exec (.ldB x) s = .next t := by
  rw [exec, execLdB, stored]

theorem exec_ldMemVx_of_stored {s t : State} {x : Reg} (stored : s.storeBytes s.i.toNat (blockOf s x) = some t) :
    exec (.ldMemVx x) s = .next t := by
  rw [exec, execLdMemVx, stored]

theorem exec_ldVxMem_of_loaded {s : State} {x : Reg} {bs : List Byte}
    (loaded : s.loadBytes s.i.toNat (x.val + 1) = some bs) : exec (.ldVxMem x) s = .next (s.setRegs bs) := by
  rw [exec, execLdVxMem, loaded]

/-- An access through I that leaves the address space raises MEM_BOUNDS, whichever instruction makes it (20_memory.md
R66). -/
theorem exec_of_accessOutOfRange {i : Instr} {s : State} (accesses : 0 < accessCount i)
    (beyond : s.i.toNat + accessCount i > 4096) : exec i s = .next (s.raise .memBounds s.memFaultInfo) := by
  cases i with
  | drw x y n => exact exec_drw_of_outOfRange x y accesses (Nat.le_sub_one_of_lt beyond)
  | ldB x => rw [exec, execLdB, storeBytes_outOfRange s _ (bcdDigits (s.reg x)) (List.cons_ne_nil _ _) beyond]
  | ldMemVx x =>
    have nonempty : blockOf s x ≠ [] := List.ne_nil_of_length_pos (by rw [blockOf_length]; exact accesses)
    rw [exec, execLdMemVx, storeBytes_outOfRange s _ _ nonempty (by rw [blockOf_length]; exact beyond)]
  | ldVxMem x => rw [exec, execLdVxMem, loadBytes_outOfRange s _ (x.val + 1) accesses.ne' beyond]
  | _ => exact absurd accesses (Nat.lt_irrefl 0)

theorem takesFault_of_accessOutOfRange {i : Instr} {s : State} (accesses : 0 < accessCount i)
    (beyond : s.i.toNat + accessCount i > 4096) :
    ∃ t, exec i s = .next t ∧ TakesFault s t 5 (max s.i.toNat 4096) :=
  ⟨_, exec_of_accessOutOfRange accesses beyond, takesFault_raise s .memBounds (memFaultInfo_toNat s)⟩

/-! ### The obligations -/

/-- Settles O38: the bytes stored are those of the block V0 to VX, in order. -/
theorem blockStoreWritesV0ToVx : Obligations.BlockStoreWritesV0ToVx := by
  refine ⟨encoded_of_decodeF rfl fun w byte => by rw [decodeF, byte]; rfl, fun s x =>
    ⟨fun inRange => ?_, fun beyond => takesFault_of_accessOutOfRange (Nat.succ_pos _) (Nat.succ_lt_succ beyond)⟩⟩
  have len := blockOf_length s x
  obtain ⟨t, stored, reads, pc, frame⟩ := exists_storeBytes (s := s) (a := s.i.toNat) (bs := blockOf s x) (by omega)
  refine ⟨t, exec_ldMemVx_of_stored stored, fun k le => ?_, pc, len ▸ frame⟩
  have within : k.val < (blockOf s x).length := len ▸ Nat.lt_succ_of_le le
  rw [reads k within, blockOf_getElem]

/-- Settles O39: the list loaded has the X + 1 bytes at I upward, and setRegs writes that many registers. -/
theorem blockLoadReadsV0ToVx : Obligations.BlockLoadReadsV0ToVx := by
  refine ⟨encoded_of_decodeF rfl fun w byte => by rw [decodeF, byte]; rfl, fun s x =>
    ⟨fun inRange => ?_, fun beyond => takesFault_of_accessOutOfRange (Nat.succ_pos _) (Nat.succ_lt_succ beyond)⟩⟩
  obtain ⟨bs, loaded, len, reads⟩ := exists_loadBytes (s := s) (a := s.i.toNat) (n := x.val + 1) (by omega)
  refine ⟨_, exec_ldVxMem_of_loaded loaded, fun k le => ?_, fun k above => reg_setRegs_of_ge s (len ▸ above),
    setRegs_pc s bs, frame_setRegs s bs⟩
  have within : k.val < bs.length := len ▸ Nat.lt_succ_of_le le
  rw [reads k within, reg_setRegs_of_lt s within]

/-- Settles O37: the bytes stored are the three BCD digits, each below 256. -/
theorem bcdStoresThreeDigits : Obligations.BcdStoresThreeDigits := by
  refine ⟨encoded_of_decodeF rfl fun w byte => by rw [decodeF, byte]; rfl, fun s x =>
    ⟨fun inRange => ?_, fun beyond => takesFault_of_accessOutOfRange (Nat.succ_pos _) (Nat.succ_lt_succ beyond)⟩⟩
  obtain ⟨t, stored, reads, pc, frame⟩ :=
    exists_storeBytes (s := s) (a := s.i.toNat) (bs := bcdDigits (s.reg x)) (Nat.succ_le_succ inRange)
  have len : (bcdDigits (s.reg x)).length = 3 := rfl
  refine ⟨t, _, _, _, exec_ldB_of_stored stored, reads 0 (by omega), reads 1 (by omega), reads 2 (by omega),
    ?_, ?_, ?_, pc, frame⟩
  all_goals exact (BitVec.toNat_ofNat _ _).trans (Nat.mod_eq_of_lt (by omega))

end Sys2Proof.Machine
end

section
/-! Faults (60_exceptions.md R220 to R223, 40_cycle.md R108): Execute raises what the fault table gives and otherwise
keeps HALTED, and a Cycle is precise about both. -/
namespace Sys2Proof.Machine

/-! ### Execute against the fault table -/

/-- Where the table gives a fault, Execute raises it, with the table's code and FAULT_INFO (R220). -/
theorem exec_of_expectedFault {i : Instr} {s : State} {fault : BitVec 4 × Nat}
    (expected : expectedFault i s = some fault) :
    ∃ c n, exec i s = .next (s.raise c n) ∧ (c.code, n.toNat) = fault := by
  cases i with
  | call nnn =>
    obtain ⟨full, rfl⟩ := Option.ite_some_none_eq_some.mp expected
    exact ⟨_, _, exec_call_of_full nnn full, rfl⟩
  | ret =>
    obtain ⟨empty, rfl⟩ := Option.ite_some_none_eq_some.mp expected
    exact ⟨_, _, exec_ret_of_empty empty, rfl⟩
  | skp x =>
    obtain ⟨notKey, rfl⟩ := Option.ite_some_none_eq_some.mp expected
    exact ⟨_, _, exec_skp_of_notKey notKey, congrArg _ (BitVec.toNat_setWidth_of_le (by decide))⟩
  | sknp x =>
    obtain ⟨notKey, rfl⟩ := Option.ite_some_none_eq_some.mp expected
    exact ⟨_, _, exec_sknp_of_notKey notKey, congrArg _ (BitVec.toNat_setWidth_of_le (by decide))⟩
  | _ =>
    simp only [expectedFault, Option.ite_some_none_eq_some] at expected
    obtain ⟨⟨accesses, beyond⟩, rfl⟩ := expected
    exact ⟨_, _, exec_of_accessOutOfRange accesses beyond, congrArg _ (memFaultInfo_toNat s)⟩

/-- A row of the table that gives no fault is one whose condition fails. -/
theorem not_of_noFault {p : Prop} [Decidable p] {fault : BitVec 4 × Nat}
    (noFault : (if p then some fault else none) = none) : ¬p :=
  (Option.some_ne_none fault).ite_eq_right_iff.mp noFault

/-- An access through I without a fault in the table touches no byte or stays in range (20_memory.md R65, R66). -/
theorem accessInRange_of_noFault {a n : Nat} {fault : BitVec 4 × Nat}
    (noFault : (if 0 < n ∧ a + n > 4096 then some fault else none) = none) : n = 0 ∨ a + n ≤ 4096 := by
  have noAccessBeyond := not_of_noFault noFault
  omega

/-- Where the table gives no fault, Execute answers a state whose status registers are as they were. -/
theorem exec_of_noExpectedFault {i : Instr} {s : State} (noFault : expectedFault i s = none) :
    ∃ t, exec i s = .next t ∧ KeepsControl s t := by
  cases i with
  | call nnn =>
    have notFull : s.sp.val ≠ 16 := not_of_noFault noFault
    exact ⟨_, exec_call_of_room nnn (by omega), keepsControl_of_eq _ rfl⟩
  | ret =>
    have nonempty : s.sp.val ≠ 0 := not_of_noFault noFault
    obtain ⟨k, pushed⟩ := Fin.exists_succ_eq.mpr (Fin.val_ne_zero_iff.mp nonempty)
    exact ⟨_, exec_ret_of_pushed (congrArg Fin.val pushed.symm), keepsControl_of_eq _ rfl⟩
  | skp x =>
    have isKey := Nat.not_lt.mp (not_of_noFault noFault)
    exact ⟨_, exec_skp_of_key isKey, keepsControl_skipIf s _⟩
  | sknp x =>
    have isKey := Nat.not_lt.mp (not_of_noFault noFault)
    exact ⟨_, exec_sknp_of_key isKey, keepsControl_skipIf s _⟩
  | drw x y n =>
    have loaded := loadBytes_inRange s _ n.val (accessInRange_of_noFault noFault)
    exact ⟨_, exec_drw_of_loaded x y loaded, keepsControl_of_eq _ rfl⟩
  | ldB x =>
    have inside := (accessInRange_of_noFault noFault).resolve_left (Nat.succ_ne_zero _)
    obtain ⟨t, stored, -⟩ := exists_storeBytes (bs := bcdDigits (s.reg x)) inside
    exact ⟨t, exec_ldB_of_stored stored, keepsControl_storeBytes stored⟩
  | ldMemVx x =>
    have inside := (accessInRange_of_noFault noFault).resolve_left (Nat.succ_ne_zero _)
    obtain ⟨t, stored, -⟩ := exists_storeBytes (bs := blockOf s x) (by rwa [blockOf_length])
    exact ⟨t, exec_ldMemVx_of_stored stored, keepsControl_storeBytes stored⟩
  | ldVxMem x =>
    have loaded := loadBytes_inRange s _ (x.val + 1) (accessInRange_of_noFault noFault)
    exact ⟨_, exec_ldVxMem_of_loaded loaded, keepsControl_setRegs s _⟩
  | ldVxK x =>
    cases lowest : lowestKey s with
    | some k => exact ⟨_, exec_ldVxK_of_lowest x lowest, keepsControl_of_eq _ rfl⟩
    | none => exact ⟨_, exec_ldVxK_of_none x lowest, keepsControl_of_eq _ rfl⟩
  | seImm x nn | sneImm x nn | seReg x y | sneReg x y => exact ⟨_, rfl, keepsControl_skipIf s _⟩
  | addReg x y | sub x y | shr x y | subn x y | shl x y => exact ⟨_, rfl, keepsControl_writeRF s _ _ _⟩
  | _ => exact ⟨_, rfl, keepsControl_of_eq _ rfl⟩

/-- Settles O13: what Execute raises is the table's fault, and where the table has none HALTED is kept. -/
theorem executeFaultsExactlyAsTheTableSays : Obligations.ExecuteFaultsExactlyAsTheTableSays := by
  intro i s running
  refine ⟨fun code info expected => ?_, fun noFault => ?_⟩
  · obtain ⟨c, n, raised, ⟨⟩⟩ := exec_of_expectedFault expected
    exact ⟨_, raised, takesFault_raise s c rfl⟩
  · obtain ⟨t, answered, keptHalted, -⟩ := exec_of_noExpectedFault noFault
    exact ⟨t, answered, keptHalted.trans running⟩

/-! ### The Cycle -/

/-- The table reads SP, I and the registers, which stand in Execute's state as they did before the Cycle (40_cycle.md
R102). -/
theorem expectedFault_enterExecute (i : Instr) (s : State) (op : Word) :
    expectedFault i (s.beginCycle.enterExecute op) = expectedFault i s := rfl

/-- A running block whose fetch fails takes the fetch's fault (40_cycle.md R101). -/
theorem step_of_fetch_error {s : State} {c : Fault} {n : BitVec 17} (running : s.halted = false)
    (failed : s.fetch = .error (c, n)) : step s = .next (faultEntry s.beginCycle c s.pc 0 n) := by
  have failed' : s.beginCycle.fetch = .error (c, n) := failed
  rw [step, if_neg (by simp [running]), failed']

/-- A Cycle in which Execute raises a fault ends with the state raised (40_cycle.md R108). -/
theorem completeCycle_raise (s : State) (c : Fault) (n : BitVec 17) : (s.raise c n).completeCycle = s.raise c n :=
  if_pos rfl

/-- A Cycle that has fetched a word halts the block only where the table gives the word's instruction a fault. -/
theorem exists_expectedFault_of_halted {s t : State} {op : Word} (running : s.halted = false)
    (fetched : s.fetch = .ok op) (stepped : step s = .next t) (halted : t.halted = true) :
    ∃ i fault, decodeWord op = .instr i ∧ expectedFault i s = some fault := by
  cases decoded : decodeWord op with
  | unmapped =>
    cases (step_of_unmapped running fetched decoded).symm.trans stepped
    exact Bool.noConfusion (running.symm.trans halted)
  | instr i =>
    cases expected : expectedFault i s with
    | some fault => exact ⟨i, fault, rfl, expected⟩
    | none =>
      obtain ⟨r, answered, keptHalted, -⟩ :=
        exec_of_noExpectedFault ((expectedFault_enterExecute i s op).trans expected)
      have stillRunning : r.halted = false := keptHalted.trans running
      cases (step_of_instr running fetched decoded answered).symm.trans stepped
      rw [completeCycle_of_running stillRunning] at halted
      exact Bool.noConfusion (stillRunning.symm.trans halted)

/-- Settles O12: the fault of the fetch, the fault Execute raises where the table gives one, and no other halt. -/
theorem faultsArePrecise : Obligations.FaultsArePrecise := by
  intro s running
  refine ⟨fun cause info failed => step_of_fetch_error running failed,
    fun word i code info fetched decoded expected => ?_, fun t stepped halted => ?_⟩
  · obtain ⟨c, n, raised, ⟨⟩⟩ := exec_of_expectedFault ((expectedFault_enterExecute i s word).trans expected)
    refine ⟨n, rfl, ?_⟩
    rw [step_of_instr running fetched decoded raised, completeCycle_raise, raise_enterExecute]
  · cases fetched : s.fetch with
    | error fault => exact .inl ⟨fault.1, fault.2, rfl⟩
    | ok word =>
      obtain ⟨i, fault, decoded, expected⟩ := exists_expectedFault_of_halted running fetched stepped halted
      exact .inr ⟨word, i, fault, rfl, decoded, expected⟩

end Sys2Proof.Machine
end

section
/-! The host's moves (70_reset_and_hazards.md R250, R254, R255): the outcomes of LOAD, what a Cycle does to LOAD's
window, and the reset contents of memory. -/
namespace Sys2Proof.Machine

/-! ### LOAD -/

theorem imageWellFormed_iff (image : List Byte) : imageWellFormed image = true ↔ image.length ≤ 3584 :=
  decide_eq_true_iff

/-- While the window is open, an image that fits is stored at 0x200 and closes the window. -/
theorem load_of_stored {s t : State} {image : List Byte} (windowOpen : s.loadOpen = true)
    (fits : image.length ≤ 3584) (stored : s.storeBytes 0x200 image = some t) :
    s.load image = .next { t with loadOpen := false } := by
  rw [State.load, if_pos windowOpen, if_pos ((imageWellFormed_iff image).mpr fits), stored]

theorem load_of_tooLong {s : State} {image : List Byte} (windowOpen : s.loadOpen = true)
    (tooLong : 3584 < image.length) : s.load image = .refused .imageTooLong := by
  rw [State.load, if_pos windowOpen, if_neg (by rw [imageWellFormed_iff]; omega)]

theorem load_of_closed {s : State} (closed : s.loadOpen = false) (image : List Byte) :
    s.load image = .refused .loadClosed := by
  rw [State.load, if_neg (by simp [closed])]

/-- Every Cycle of a running block ends with LOAD's window closed: the Cycle begins by closing it, and neither a fault
nor an instruction opens it. -/
theorem loadOpen_of_step {s t : State} (running : s.halted = false) (stepped : step s = .next t) :
    t.loadOpen = false := by
  rcases step_running_cases running stepped with
    ⟨c, n, -, rfl⟩ | ⟨op, -, -, rfl⟩ | ⟨op, i, r, -, -, -, ⟨c, n, rfl, rfl⟩ | ⟨keeps, rfl⟩⟩
  · rfl
  · rfl
  · rfl
  · obtain ⟨-, -, -, -, -, -, -, -, -, -, -, keepsWindow, -⟩ := keeps
    exact keepsWindow

/-- Settles O50: an image that fits the ROM area stays inside memory, so its store happens; the other outcomes of LOAD
are refusals, and the window's other moves are RESET and a running Cycle. -/
theorem loadCopiesTheImage : Obligations.LoadCopiesTheImage := by
  intro s image
  refine ⟨fun windowOpen fits => ?_, load_of_tooLong, fun closed => load_of_closed closed image, ?_,
    fun t stepped running => loadOpen_of_step running stepped⟩
  · obtain ⟨t, stored, reads, -, frame⟩ := exists_storeBytes (s := s) (a := 0x200) (bs := image) (by omega)
    obtain ⟨-, -, -, -, -, -, outside, -⟩ := frame
    have loaded := load_of_stored windowOpen fits stored
    exact ⟨_, loaded, reads, outside, load_eq loaded⟩
  · rintro t ⟨⟩
    rfl

/-! ### RESET -/

/-- Memory reads as its reset contents after RESET, when no address is listed (10_state.md R29). -/
theorem readByte_resetMove (s : State) {a : Nat} (inRange : a < 4096) :
    s.resetMove.readByte a = some (Memory.background s.cfg.glyphRom a) :=
  readByte_of_lt s.resetMove inRange

theorem background_glyph (rom : GlyphRom) {k : Nat} (h : k < 80) : Memory.background rom (0x50 + k) = rom[k] := by
  have inGlyphs : 0x50 ≤ 0x50 + k ∧ 0x50 + k < 0xA0 := by omega
  simp only [Memory.background, dif_pos inGlyphs, Nat.add_sub_cancel_left]

theorem background_outside (rom : GlyphRom) {a : Nat} (outside : ¬(0x50 ≤ a ∧ a < 0xA0)) :
    Memory.background rom a = 0 :=
  dif_neg outside

theorem reg_resetMove (s : State) (r : Reg) : s.resetMove.reg r = 0 := Vector.getElem_replicate r.isLt

theorem stack_resetMove (s : State) (k : Fin 16) : s.resetMove.stack[k.val] = 0 := Vector.getElem_replicate k.isLt

theorem cell_resetMove (s : State) (x y : Nat) : s.resetMove.cell x y = false := cell_replicate x y

/-- Settles O1: the register files, memory and the framebuffer by their read lemmas, every other row of the table by
the value RESET writes. -/
theorem resetGivesTheTableValues : Obligations.ResetGivesTheTableValues := by
  intro s
  have glyphs : ∀ k (h : k < 80), s.resetMove.readByte (0x50 + k) = some s.cfg.glyphRom[k] := fun k h => by
    rw [readByte_resetMove s (by omega), background_glyph _ h]
  have zeros : ∀ a, a < 4096 → ¬(0x50 ≤ a ∧ a < 0xA0) → s.resetMove.readByte a = some 0 := fun a h outside => by
    rw [readByte_resetMove s h, background_outside _ outside]
  exact ⟨s.resetMove, rfl, reg_resetMove s, rfl, rfl, rfl, stack_resetMove s, rfl, rfl, glyphs, zeros, cell_resetMove s,
    rfl, rfl, rfl, rfl, rfl, rfl, rfl, rfl⟩

/-- Settles O2: RESET's next state is by definition the reset state under the parameters of s. -/
theorem resetMoveGivesTheResetState : Obligations.ResetMoveGivesTheResetState := by
  refine ⟨fun s => rfl, ?_, rfl, rfl⟩
  rintro s t ⟨⟩
  rfl

/-! ### A write of KEY, and STEP -/

/-- Settles O55: the move writes the one field. -/
theorem writeKeyChangesTheKeypadAlone : Obligations.WriteKeyChangesTheKeypadAlone := fun _ _ => rfl

/-- Settles O56: the move lines the byte up and runs the Cycle. -/
theorem stepMoveIsOneCycleWithTheByte : Obligations.StepMoveIsOneCycleWithTheByte := fun _ _ => rfl

end Sys2Proof.Machine
end

section
/-! The invariant of the block (41_control_flow.md R123, R128; 60_exceptions.md R222): where an instruction can leave pc
and which registers it writes, and how each part of the invariant is kept by Execute, by the Cycle and by the host. -/
namespace Sys2Proof

/-- The registers an instruction names as destination or writes a flag to (10_state.md R23). -/
def Instr.WritesReg (i : Instr) (r : Reg) : Prop :=
  match i with
  | .ldImm x _ | .addImm x _ | .ldReg x _ | .or x _ | .and x _ | .xor x _ | .rnd x _ | .ldVxDt x | .ldVxK x => r = x
  | .addReg x _ | .sub x _ | .subn x _ | .shr x _ | .shl x _ => r = x ∨ r = VF
  | .drw _ _ _ => r = VF
  | .ldVxMem x => r ≤ x
  | _ => False

end Sys2Proof

namespace Sys2Proof.Machine

/-! ### What Execute leaves in pc and in the registers -/

/-- The addresses an instruction run at s can leave in pc (R128): the next instruction's, the one a skip adds, the
instruction's own (a key wait or a fault), a target, or a stack entry. -/
inductive NextPc (s : State) : Word → Prop
  | kept : NextPc s s.pc
  | skipped : NextPc s (s.pc + 2)
  | back : NextPc s (s.pc - 2)
  | jump (nnn : Addr12) : NextPc s (zextNNN nnn)
  | indexed (nnn : Addr12) : NextPc s (indexedTarget s nnn)
  | returned (k : Fin 16) : NextPc s s.stack[k.val]

theorem nextPc_skipIf (s : State) (c : Bool) : NextPc s (s.skipIf c).pc := by
  cases c
  · exact .kept
  · exact .skipped

@[simp] theorem writeRF_pc (s : State) (x : Reg) (r : Byte) (f : Bool) : (s.writeRF x r f).pc = s.pc := by
  rw [writeRF_eq]

/-- Execute leaves pc at one of the addresses of R128 and keeps every register the instruction does not write. -/
theorem exec_nextPc_reg {i : Instr} {s t : State} (he : exec i s = .next t) :
    NextPc s t.pc ∧ ∀ r, ¬i.WritesReg r → t.reg r = s.reg r := by
  have raised : ∀ c n, NextPc s (s.raise c n).pc ∧ ∀ r, ¬i.WritesReg r → (s.raise c n).reg r = s.reg r :=
    fun c n => ⟨.back, fun _ _ => rfl⟩
  have skips : ∀ c, NextPc s (s.skipIf c).pc ∧ ∀ r, ¬i.WritesReg r → (s.skipIf c).reg r = s.reg r :=
    fun c => ⟨nextPc_skipIf s c, fun r _ => (frame_skipIf s c).1 r List.not_mem_nil⟩
  cases i with
  | cls | ldI | addI | ldF | ldDt | ldSt => cases he; exact ⟨.kept, fun _ _ => rfl⟩
  | jp nnn => cases he; exact ⟨.jump nnn, fun _ _ => rfl⟩
  | jpV0 nnn => cases he; exact ⟨.indexed nnn, fun _ _ => rfl⟩
  | seImm | sneImm | seReg | sneReg => cases he; exact skips _
  | ldImm | addImm | ldReg | or | and | xor | rnd | ldVxDt =>
    cases he; exact ⟨.kept, fun _ other => reg_setReg_of_ne s _ other⟩
  | addReg | sub | subn | shr | shl =>
    cases he
    rw [writeRF_pc]
    exact ⟨.kept, fun r other => (frame_writeRF s _ _ _).1 r (by simpa using not_or.mp other)⟩
  | call nnn =>
    simp only [exec, execCall] at he
    split at he <;> cases he
    · exact ⟨.jump nnn, fun _ _ => rfl⟩
    · exact raised _ _
  | ret =>
    simp only [exec, execRet] at he
    split at he <;> cases he
    · exact raised _ _
    · exact ⟨.returned ⟨_, by omega⟩, fun _ _ => rfl⟩
  | drw x y n =>
    simp only [exec, execDrw] at he
    split at he <;> cases he
    · exact raised _ _
    · exact ⟨.kept, fun _ other => reg_setReg_of_ne _ _ other⟩
  | skp | sknp =>
    simp only [exec, execSkp, execSknp] at he
    split at he <;> cases he
    · exact raised _ _
    · exact skips _
  | ldVxK x =>
    simp only [exec, execLdVxK] at he
    split at he <;> cases he
    · exact ⟨.kept, fun _ other => reg_setReg_of_ne s _ other⟩
    · exact ⟨.back, fun _ _ => rfl⟩
  | ldB | ldMemVx =>
    simp only [exec, execLdB, execLdMemVx] at he
    split at he <;> cases he
    · rename_i stored
      rw [storeBytes_eq _ _ _ _ stored]
      exact ⟨.kept, fun _ _ => rfl⟩
    · exact raised _ _
  | ldVxMem x =>
    cases loaded : s.loadBytes s.i.toNat (x.val + 1) with
    | none =>
      rw [exec, execLdVxMem, loaded] at he
      cases he
      exact raised _ _
    | some bs =>
      obtain rfl := Host.Outcome.next.inj ((exec_ldVxMem_of_loaded loaded).symm.trans he)
      rw [setRegs_pc]
      refine ⟨.kept, fun r other => reg_setRegs_of_ge s ?_⟩
      rw [loadBytes_length s loaded]
      exact Nat.lt_of_not_le other

/-! ### Each part of the invariant through Execute -/

theorem indexedTarget_toNat_le (s : State) (nnn : Addr12) : (indexedTarget s nnn).toNat ≤ 0x10FE := by
  have := (s.reg 0).isLt
  have := nnn.isLt
  rw [indexedTarget_toNat]
  omega

/-- From an execution address of 2 to 0x1000, and return addresses up to 0x1000, pc is at most 0x10FE (R128). -/
theorem NextPc.toNat_le {s : State} {a : Word} (next : NextPc s a) (low : 2 ≤ s.pc.toNat) (high : s.pc.toNat ≤ 0x1000)
    (returns : ∀ k : Fin 16, s.stack[k.val].toNat ≤ 0x1000) : a.toNat ≤ 0x10FE := by
  cases next with
  | kept => omega
  | skipped => bv_omega
  | back => bv_omega
  | jump nnn =>
    have := nnn.isLt
    rw [zextNNN_toNat]
    omega
  | indexed nnn => exact indexedTarget_toNat_le s nnn
  | returned k => exact (returns k).trans (by decide)

/-- Execute keeps the canonical form: only the two stores write memory, and a store keeps it. -/
theorem wf_of_exec {i : Instr} {s r : State} (he : exec i s = .next r)
    (canonical : Memory.wf s.cfg.glyphRom s.mem = true) : Memory.wf r.cfg.glyphRom r.mem = true := by
  obtain ⟨-, -, -, keepsMem, -, -, keepsCfg⟩ := exec_writers i s r he
  cases i with
  | ldB | ldMemVx =>
    simp only [exec, execLdB, execLdMemVx] at he
    split at he <;> cases he
    · exact storeBytes_wf _ _ _ _ ‹_› canonical
    · exact canonical
  | _ => rwa [keepsMem nofun nofun, keepsCfg]

/-- Execute at a pc of at most 0x1000 keeps every stack entry a return address: CALL pushes that pc (R122). -/
theorem stack_of_exec {i : Instr} {s r : State} (he : exec i s = .next r) (high : s.pc.toNat ≤ 0x1000)
    (returns : ∀ k : Fin 16, s.stack[k.val].toNat ≤ 0x1000) : ∀ k : Fin 16, r.stack[k.val].toNat ≤ 0x1000 := by
  obtain ⟨keepsStack, -⟩ := exec_writers i s r he
  cases i with
  | call nnn =>
    simp only [exec, execCall] at he
    split at he <;> cases he
    · intro k
      simp only [Vector.getElem_set]
      split
      · exact high
      · exact returns k
    · exact returns
  | ret =>
    simp only [exec, execRet] at he
    split at he <;> cases he <;> exact returns
  | _ => rwa [(keepsStack nofun nofun).2]

/-! ### The fault record -/

theorem code_bounds (c : Fault) : 1 ≤ c.code.toNat ∧ c.code.toNat ≤ 6 := by
  cases c <;> decide

theorem recordFits_of_running {s : State} (running : s.halted = false) :
    s.recordFits ↔ s.faultCause = 0 ∧ s.faultPc = 0 ∧ s.faultOpcode = 0 ∧ s.faultInfo = 0 := by
  rw [State.recordFits, if_neg (by simp [running])]

theorem recordFits_of_halted {s : State} (halted : s.halted = true) :
    s.recordFits ↔ 1 ≤ s.faultCause.toNat ∧ s.faultCause.toNat ≤ 6 ∧ s.faultPc = s.pc ∧ s.unkStrobe = false ∧
      s.loadOpen = false := by
  rw [State.recordFits, if_pos halted]

/-- While the block runs, the record fits as long as HALTED and the record are kept. -/
theorem recordFits_of_kept {s t : State} (record : s.recordFits) (running : s.halted = false)
    (kept : t.halted = s.halted ∧ t.faultCause = s.faultCause ∧ t.faultPc = s.faultPc ∧
      t.faultOpcode = s.faultOpcode ∧ t.faultInfo = s.faultInfo) : t.recordFits := by
  obtain ⟨keptHalted, keptCause, keptPc, keptOpcode, keptInfo⟩ := kept
  rw [recordFits_of_running (keptHalted.trans running), keptCause, keptPc, keptOpcode, keptInfo]
  exact (recordFits_of_running running).mp record

/-- A fault taken at pc, with LOAD closed, leaves a record that fits. -/
theorem recordFits_faultEntry {s : State} (closed : s.loadOpen = false) (c : Fault) (op : Word) (n : BitVec 17) :
    (faultEntry s c s.pc op n).recordFits :=
  (recordFits_of_halted rfl).mpr ⟨(code_bounds c).1, (code_bounds c).2, rfl, rfl, closed⟩

/-! ### The Cycle and the host's moves -/

/-- Settles O3: no byte is listed, pc is 0x200, and every entry and record is 0. -/
theorem invariantHoldsAtReset : Obligations.InvariantHoldsAtReset := by
  have atReset : ∀ cfg : Config, (State.resetWith cfg).Inv := fun cfg => by
    have pcLow : (State.resetWith cfg).pc.toNat ≤ 0x10FE := by
      show (0x200#16).toNat ≤ 0x10FE
      decide
    have stackZero : ∀ k : Fin 16, (State.resetWith cfg).stack[k.val] = 0 := fun k => Vector.getElem_replicate k.isLt
    refine ⟨rfl, pcLow, fun k => ?_, rfl, (recordFits_of_running rfl).mpr ⟨rfl, rfl, rfl, rfl⟩⟩
    rw [stackZero k]
    decide
  exact ⟨atReset, atReset Config.default⟩

/-- A fault of the Cycle keeps the invariant: memory, pc and the stack are those from before it. -/
theorem inv_faultEntry {s : State} (inv : s.Inv) (c : Fault) (op : Word) (n : BitVec 17) :
    (faultEntry s.beginCycle c s.pc op n).Inv := by
  obtain ⟨canonical, pcLow, returns, -, -⟩ := inv
  exact ⟨canonical, pcLow, returns, rfl, recordFits_faultEntry (s := s.beginCycle) rfl c op n⟩

/-- The state Execute leaves, if it took no fault, completes to one with the invariant. -/
theorem inv_of_exec {s r : State} {op : Word} {i : Instr} (inv : s.Inv) (running : s.halted = false)
    (fetched : s.fetch = .ok op) (he : exec i (s.beginCycle.enterExecute op) = .next r)
    (keeps : KeepsControl (s.beginCycle.enterExecute op) r) :
    (({ r with unkStrobe := false } : State).finishCycle).Inv := by
  obtain ⟨canonical, -, returns, -, record⟩ := inv
  obtain ⟨keptHalted, keptCause, keptPc, keptOpcode, keptInfo, -⟩ := keeps
  have pcBound := pc_lt_of_fetch_ok s fetched
  have pcExecute : (s.beginCycle.enterExecute op).pc.toNat = s.pc.toNat + 2 := by
    rw [enterExecute_pc, beginCycle_pc]
    bv_omega
  have pcLow : r.pc.toNat ≤ 0x10FE := (exec_nextPc_reg he).1.toNat_le (by omega) (by omega) returns
  have canonical' := wf_of_exec he canonical
  have returns' := stack_of_exec he (by omega) returns
  exact ⟨canonical', pcLow, returns', rfl,
    recordFits_of_kept record running ⟨keptHalted, keptCause, keptPc, keptOpcode, keptInfo⟩⟩

/-- A STEP on a halted block keeps the invariant. -/
theorem inv_haltedStep {s : State} (inv : s.Inv) (halted : s.halted = true) : s.haltedStep.Inv := by
  obtain ⟨canonical, pcLow, returns, latch, record⟩ := inv
  obtain ⟨causeLow, causeHigh, atPc, -, closed⟩ := (recordFits_of_halted halted).mp record
  exact ⟨canonical, pcLow, returns, latch,
    (recordFits_of_halted (s := s.haltedStep) halted).mpr ⟨causeLow, causeHigh, atPc, rfl, closed⟩⟩

/-- A counted no-op moves pc on by 2 and keeps the rest of the invariant. -/
theorem inv_countUnmapped {s : State} {op : Word} (inv : s.Inv) (running : s.halted = false)
    (fetched : s.fetch = .ok op) : (((s.beginCycle.enterExecute op).countUnmapped).finishCycle).Inv := by
  obtain ⟨canonical, -, returns, -, record⟩ := inv
  have pcBound := pc_lt_of_fetch_ok s fetched
  refine ⟨canonical, ?_, returns, rfl, recordFits_of_kept record running ⟨rfl, rfl, rfl, rfl, rfl⟩⟩
  simp only [finishCycle_pc, countUnmapped_pc, enterExecute_pc, beginCycle_pc]
  bv_omega

/-- Settles O4: the invariant through each of the ways a Cycle ends. -/
theorem stepKeepsInvariant : Obligations.StepKeepsInvariant := by
  intro s t inv stepped
  cases running : s.halted with
  | true =>
    cases (step_of_halted running).symm.trans stepped
    exact inv_haltedStep inv running
  | false =>
    rcases step_running_cases running stepped with
      ⟨c, n, -, rfl⟩ | ⟨op, fetched, -, rfl⟩ | ⟨op, i, r, fetched, -, he, ⟨c, n, rfl, rfl⟩ | ⟨keeps, rfl⟩⟩
    · exact inv_faultEntry inv c 0 n
    · exact inv_countUnmapped inv running fetched
    · rw [raise_enterExecute]
      exact inv_faultEntry inv c op n
    · exact inv_of_exec inv running fetched he keeps

/-- An accepted LOAD stores a canonical image into a running block, and closes the window. -/
theorem inv_of_load {s t : State} {image : List Byte} (inv : s.Inv) (loaded : s.load image = .next t) : t.Inv := by
  obtain ⟨canonical, pcLow, returns, latch, record⟩ := inv
  cases windowOpen : s.loadOpen with
  | false =>
    rw [load_of_closed windowOpen] at loaded
    cases loaded
  | true =>
    have running : s.halted = false := by
      by_contra halted
      obtain ⟨-, -, -, -, closed⟩ := (recordFits_of_halted (eq_true_of_ne_false halted)).mp record
      exact Bool.noConfusion (windowOpen.symm.trans closed)
    by_cases fits : image.length ≤ 3584
    · obtain ⟨u, stored, -⟩ := exists_storeBytes (s := s) (a := 0x200) (bs := image) (by omega)
      cases (load_of_stored windowOpen fits stored).symm.trans loaded
      have canonical' := storeBytes_wf _ _ _ _ stored canonical
      rw [storeBytes_eq _ _ _ _ stored] at canonical' ⊢
      exact ⟨canonical', pcLow, returns, latch, recordFits_of_kept record running ⟨rfl, rfl, rfl, rfl, rfl⟩⟩
    · rw [load_of_tooLong windowOpen (by omega)] at loaded
      cases loaded

/-- Settles O5: RESET gives the invariant of reset, LOAD and STEP keep it by their own lemmas, and no part of it speaks
of the ports. -/
theorem hostMovesKeepInvariant : Obligations.HostMovesKeepInvariant := by
  intro m s t inv moved
  cases m with
  | reset => cases moved; exact invariantHoldsAtReset.1 s.cfg
  | load image => exact inv_of_load inv moved
  | writeKey levels => cases moved; exact inv
  | step rnd => exact stepKeepsInvariant { s with rndIn := [rnd] } t inv moved

end Sys2Proof.Machine
end

section
/-! Decode and encode agree (30_encoding.md R84 to R91, R95): a packed word gives its own fields back, so the primary
key and, in families 0, 8, E and F, the secondary key pick the row the encoder wrote. -/
namespace Sys2Proof

/-- The word of an instruction decodes to it, through the field lemmas of the form its row is packed in. -/
theorem decodeWord_encode (i : Instr) : decodeWord (encode i) = .instr i := by
  cases i with
  | cls | ret => rfl
  | jp | call | ldI | jpV0 => simp [encode, decodeWord]
  | seImm | sneImm | ldImm | addImm | rnd => simp [encode, decodeWord]
  | seReg | sneReg | drw => simp [encode, decodeWord]
  | ldReg | or | and | xor | addReg | sub | shr | subn | shl => simp [encode, decodeWord, decode8]
  | skp | sknp => simp [encode, decodeWord, decodeE]
  | ldVxDt | ldVxK | ldDt | ldSt | addI | ldF | ldB | ldMemVx | ldVxMem => simp [encode, decodeWord, decodeF]

/-- The two bytes of an instruction's word decode to it, and the bytes after them are left over. -/
theorem decodeBytes_encodeBytes (i : Instr) (rest : List Byte) :
    decodeBytes (encodeBytes i ++ rest) = .ok (i, rest) := by
  simp only [encodeBytes, List.cons_append, List.nil_append, decodeBytes, wordOfBytes_bytes, decodeWord_encode]

/-- Settles O53: the operand types are the widths of the fields, so every instruction is well formed and comes back. -/
theorem decodeOfEncodeIsTheInstruction : Obligations.DecodeOfEncodeIsTheInstruction :=
  fun i rest _ => ⟨decodeWord_encode i, decodeBytes_encodeBytes i rest⟩

/-- Settles O52: the decoder evaluated on the fifteen words. -/
theorem knownWordsDecode : Obligations.KnownWordsDecode :=
  ⟨rfl, rfl, rfl, rfl, rfl, rfl, rfl, rfl, rfl, rfl, rfl, rfl, rfl, rfl, rfl⟩

end Sys2Proof
end

section
/-! Memory as an array (20_memory.md R60, R66, R70, R72): the canonical form is extensional, a read returns the last
write, and the fetch and the block transfers read what was stored. -/
namespace Sys2Proof.Machine

/-- A canonical memory lists no address outside the address space. -/
theorem find_eq_none_of_ge {rom : GlyphRom} {m : List Host.Cell} {lo a : Nat}
    (canonical : Memory.wfFrom rom lo m = true) (outside : 4096 ≤ a) : Memory.find m a = none := by
  induction m generalizing lo with
  | nil => rfl
  | cons e m ih =>
    obtain ⟨k, c⟩ := e
    simp only [Memory.wfFrom, Bool.and_eq_true, decide_eq_true_eq] at canonical
    obtain ⟨⟨⟨-, inside⟩, -⟩, rest⟩ := canonical
    rw [Memory.find, if_neg (by omega), ih rest]

/-- Settles O6: in range the reads agree by hypothesis, beyond it neither memory lists anything, so the canonical lists
are equal. -/
theorem canonicalMemoriesReadingAlikeAreEqual : Obligations.CanonicalMemoriesReadingAlikeAreEqual := by
  intro s t sameCfg canonical canonical' alike
  rw [sameCfg] at canonical'
  refine wfFrom_ext s.cfg.glyphRom t.mem s.mem canonical' canonical fun a => ?_
  by_cases inside : a < 4096
  · have reads := alike a inside
    rw [readByte_of_lt t inside, readByte_of_lt s inside, sameCfg] at reads
    exact Option.some.inj reads
  · have outside : 4096 ≤ a := by omega
    rw [Memory.get, Memory.get, find_eq_none_of_ge canonical' outside, find_eq_none_of_ge canonical outside]

/-- A store is rejected exactly if it has a byte and its last address is above 4095 (R66). -/
theorem storeBytes_eq_none_iff (s : State) (a : Nat) (bs : List Byte) :
    s.storeBytes a bs = none ↔ bs ≠ [] ∧ a + bs.length > 4096 := by
  constructor
  · intro rejected
    by_contra fits
    obtain ⟨m, stored, -⟩ := storeBytes_inRange s a bs (by simpa [or_iff_not_imp_left] using fits)
    rw [stored] at rejected
    cases rejected
  · rintro ⟨nonempty, beyond⟩
    exact storeBytes_outOfRange s a bs nonempty beyond

/-- A stored address reads as the byte stored there (R70). -/
theorem readByte_of_stored {s t : State} {a : Nat} {bs : List Byte} (stored : s.storeBytes a bs = some t) {k : Nat}
    (h : k < bs.length) : t.readByte (a + k) = some bs[k] := by
  have fits : a + bs.length ≤ 4096 := by
    by_contra beyond
    have rejected := storeBytes_outOfRange s a bs (List.ne_nil_of_length_pos (by omega)) (by omega)
    cases rejected.symm.trans stored
  obtain ⟨u, stored', reads, -⟩ := exists_storeBytes fits
  cases stored'.symm.trans stored
  exact reads k h

/-- Settles O41: the stored bytes by their reads, every other address by the frame of a store. -/
theorem readsReturnTheLastWrite : Obligations.ReadsReturnTheLastWrite := by
  refine fun s a bs => ⟨fun t stored => ⟨fun k h => readByte_of_stored stored h, ?_⟩, storeBytes_eq_none_iff s a bs⟩
  obtain ⟨-, -, -, -, -, -, outside, -⟩ := frame_storeBytes stored
  exact outside

/-- Settles O42: a store moves neither pc nor PC_ALIGN, so the fetch reads the two bytes stored at pc. -/
theorem fetchSeesEarlierStores : Obligations.FetchSeesEarlierStores := by
  intro s t hi lo stored aligned
  have first : t.readByte s.pc.toNat = some hi := readByte_of_stored stored (k := 0) (by simp)
  have second : t.readByte (s.pc.toNat + 1) = some lo := readByte_of_stored stored (k := 1) (by simp)
  have memoryOnly := storeBytes_eq s t _ _ stored
  have samePc : t.pc = s.pc := by rw [memoryOnly]
  have sameCfg : t.cfg = s.cfg := by rw [memoryOnly]
  exact fetch_of_readByte (by rwa [samePc, sameCfg]) (by rwa [samePc]) (by rwa [samePc])

/-- Settles O40: the bytes loaded are read at the addresses the registers were stored at. -/
theorem blockStoreThenLoadRestoresRegisters : Obligations.BlockStoreThenLoadRestoresRegisters := by
  intro s t u x v inRange stores loads
  have len := blockOf_length s x
  obtain ⟨t', stored, reads, -, frame⟩ := exists_storeBytes (s := s) (a := s.i.toNat) (bs := blockOf s x) (by omega)
  cases (exec_ldMemVx_of_stored stored).symm.trans stores
  obtain ⟨-, sameI, -⟩ := frame
  have sameI : t.i = s.i := sameI rfl
  obtain ⟨bs, loaded, bsLen, readsBack⟩ :=
    exists_loadBytes (s := { t with v := v }) (a := t.i.toNat) (n := x.val + 1) (by rw [sameI]; omega)
  obtain rfl := Host.Outcome.next.inj ((exec_ldVxMem_of_loaded (s := { t with v := v }) loaded).symm.trans loads)
  refine ⟨fun k le => ?_, (setRegs_i _ bs).trans sameI⟩
  have within : k.val < bs.length := bsLen ▸ Nat.lt_succ_of_le le
  have within' : k.val < (blockOf s x).length := len ▸ Nat.lt_succ_of_le le
  rw [reg_setRegs_of_lt _ within, ← blockOf_getElem within', ← Option.some.injEq, ← readsBack k within,
    ← reads k within', sameI]
  rfl

end Sys2Proof.Machine
end

section
/-! The Cycle as a whole (40_cycle.md R100 to R109, 70_reset_and_hazards.md R260, R261): that it always answers, what it
does with a decoded instruction, and which parts of the state it changes by Execute alone. -/
namespace Sys2Proof.Machine

/-! ### What a Cycle answers -/

/-- Settles O7: step_cases names the next state of every Cycle. -/
theorem everyStepAnswersANextState : Obligations.EveryStepAnswersANextState := by
  intro s
  obtain ⟨t, stepped, -⟩ := step_cases s
  exact ⟨t, stepped⟩

/-- Settles O8: the two bytes are the word fetched, Execute runs at beginCycle and enterExecute, and completeCycle is
the accounting with the timer step. -/
theorem stepRunsTheDecodedInstruction : Obligations.StepRunsTheDecodedInstruction := by
  intro s hi lo i running aligned hhi hlo decoded
  have fetched := fetch_of_readByte aligned hhi hlo
  obtain ⟨r, he, -⟩ := exec_cases i (s.beginCycle.enterExecute (hi ++ lo))
  have execute : exec i { s with pc := s.pc + 2, op := hi ++ lo, loadOpen := false } = .next r := he
  rw [step_of_instr running fetched decoded he, execute]
  rfl

/-! ### A parked block -/

/-- The fetch depends on pc, memory and the parameters alone. -/
theorem fetch_congr {s t : State} (samePc : t.pc = s.pc) (sameMem : t.mem = s.mem) (sameCfg : t.cfg = s.cfg) :
    t.fetch = s.fetch := by
  simp only [State.fetch, readByte_congr sameMem sameCfg, samePc, sameCfg]

/-- The Cycle of a running block that fetches JP NNN. -/
theorem step_of_jp {s : State} {op : Word} {nnn : Addr12} (running : s.halted = false) (fetched : s.fetch = .ok op)
    (decoded : decodeWord op = .instr (.jp nnn)) :
    step s = .next
      ({ s.beginCycle.enterExecute op with pc := zextNNN nnn, unkStrobe := false } : State).finishCycle := by
  rw [step_of_instr running fetched decoded rfl, completeCycle_of_running (by simpa using running)]

/-- Settles O16: the jump writes back the pc it was fetched from, so the next fetch is the same. -/
theorem parkedBlockOnlyCountsTimersDown : Obligations.ParkedBlockOnlyCountsTimersDown := by
  rintro s running ⟨word, nnn, fetched, decoded, target⟩
  have samePc : zextNNN nnn = s.pc := BitVec.eq_of_toNat_eq ((zextNNN_toNat nnn).trans target)
  have stepped := step_of_jp running fetched decoded
  rw [samePc] at stepped
  exact ⟨_, stepped, ⟨word, nnn, (fetch_congr rfl rfl rfl).trans fetched, decoded, target⟩, tick_toNat s.dt,
    tick_toNat s.st, rfl⟩

/-! ### What a Cycle changes by Execute alone -/

/-- The part of the state that a Cycle writes in Execute and nowhere else. -/
structure SameStore (s t : State) : Prop where
  i : t.i = s.i
  sp : t.sp = s.sp
  stack : t.stack = s.stack
  mem : t.mem = s.mem
  fb : t.fb = s.fb
  cfg : t.cfg = s.cfg

/-- A Cycle that changes this part of the state fetched a word and decoded it to an instruction, and the state it
answers is in this part the one Execute left. -/
theorem exec_of_step_changed {s t : State} (stepped : step s = .next t) (changed : ¬SameStore s t) :
    ∃ op i r, s.fetch = .ok op ∧ decodeWord op = .instr i ∧ exec i (s.beginCycle.enterExecute op) = .next r ∧
      SameStore r t := by
  cases running : s.halted with
  | true =>
    cases (step_of_halted running).symm.trans stepped
    exact absurd ⟨rfl, rfl, rfl, rfl, rfl, rfl⟩ changed
  | false =>
    rcases step_running_cases running stepped with
      ⟨c, n, -, rfl⟩ | ⟨op, -, -, rfl⟩ | ⟨op, i, r, fetched, decoded, he, ⟨c, n, -, rfl⟩ | ⟨-, rfl⟩⟩
    · exact absurd ⟨rfl, rfl, rfl, rfl, rfl, rfl⟩ changed
    · exact absurd ⟨rfl, rfl, rfl, rfl, rfl, rfl⟩ changed
    · exact ⟨op, i, _, fetched, decoded, he, rfl, rfl, rfl, rfl, rfl, rfl⟩
    · exact ⟨op, i, r, fetched, decoded, he, rfl, rfl, rfl, rfl, rfl, rfl⟩

/-- Settles O33: Execute writes the framebuffer in CLS and DRW only. -/
theorem onlyClsAndDrwChangeTheFramebuffer : Obligations.OnlyClsAndDrwChangeTheFramebuffer := by
  intro s t stepped changed
  obtain ⟨op, i, r, fetched, decoded, he, same⟩ := exec_of_step_changed stepped (fun same => changed same.fb)
  obtain ⟨-, -, keepsFb, -⟩ := exec_writers i _ r he
  by_contra none
  have notCls : i ≠ .cls := by rintro rfl; exact none ⟨op, fetched, .inl decoded⟩
  have notDrw : ∀ x y n, i ≠ .drw x y n := by rintro x y n rfl; exact none ⟨op, fetched, .inr ⟨x, y, n, decoded⟩⟩
  exact changed (same.fb.trans (keepsFb notCls notDrw))

/-- Settles O43: a changed read is a changed memory, and Execute writes memory in the two stores only. -/
theorem onlyStoresChangeMemory : Obligations.OnlyStoresChangeMemory := by
  rintro s t stepped ⟨a, changed⟩
  obtain ⟨op, i, r, fetched, decoded, he, same⟩ :=
    exec_of_step_changed stepped (fun same => changed (readByte_congr same.mem same.cfg a))
  obtain ⟨-, -, -, keepsMem, -, -, keepsCfg⟩ := exec_writers i _ r he
  by_contra none
  have notLdB : ∀ x, i ≠ .ldB x := by rintro x rfl; exact none ⟨op, x, fetched, .inl decoded⟩
  have notLdMemVx : ∀ x, i ≠ .ldMemVx x := by rintro x rfl; exact none ⟨op, x, fetched, .inr decoded⟩
  exact changed (readByte_congr (same.mem.trans (keepsMem notLdB notLdMemVx)) (same.cfg.trans keepsCfg) a)

/-- Settles O44: Execute writes I in LD I, ADD I and LD F only. -/
theorem onlyIndexInstructionsChangeI : Obligations.OnlyIndexInstructionsChangeI := by
  intro s t stepped changed
  obtain ⟨op, i, r, fetched, decoded, he, same⟩ := exec_of_step_changed stepped (fun same => changed same.i)
  obtain ⟨-, keepsI, -⟩ := exec_writers i _ r he
  by_contra none
  have notLdI : ∀ nnn, i ≠ .ldI nnn := by rintro nnn rfl; exact none ⟨op, 0, nnn, fetched, .inl decoded⟩
  have notAddI : ∀ x, i ≠ .addI x := by rintro x rfl; exact none ⟨op, x, 0, fetched, .inr (.inl decoded)⟩
  have notLdF : ∀ x, i ≠ .ldF x := by rintro x rfl; exact none ⟨op, x, 0, fetched, .inr (.inr decoded)⟩
  exact changed (same.i.trans (keepsI notLdI notAddI notLdF))

/-- Settles O45: Execute writes SP and the stack in CALL and RET only. -/
theorem onlyCallAndRetChangeTheStack : Obligations.OnlyCallAndRetChangeTheStack := by
  intro s t stepped changed
  obtain ⟨op, i, r, fetched, decoded, he, same⟩ :=
    exec_of_step_changed stepped (fun same => changed.elim (· same.sp) (· same.stack))
  obtain ⟨keepsStack, -⟩ := exec_writers i _ r he
  by_contra none
  have notCall : ∀ nnn, i ≠ .call nnn := by rintro nnn rfl; exact none ⟨op, fetched, .inr ⟨nnn, decoded⟩⟩
  have notRet : i ≠ .ret := by rintro rfl; exact none ⟨op, fetched, .inl decoded⟩
  obtain ⟨keptSp, keptStack⟩ := keepsStack notCall notRet
  exact changed.elim (· (same.sp.trans keptSp)) (· (same.stack.trans keptStack))

/-! ### VF and the parameters -/

/-- Settles O46: the instructions that write VF are those of Instr.WritesReg at VF, row by row. -/
theorem onlyFlagInstructionsAndDestinationsChangeVf : Obligations.OnlyFlagInstructionsAndDestinationsChangeVf := by
  intro i s t he changed
  have writes : i.WritesReg VF := by
    by_contra other
    exact changed ((exec_nextPc_reg he).2 VF other)
  cases i with
  | ldVxMem x =>
    have onlyVF : x = VF := Fin.last_le_iff.mp writes
    simp [onlyVF]
  | _ => simp_all [Instr.WritesReg]

/-- A Cycle keeps the parameters: Execute does, and the rest of the Cycle never writes them. -/
theorem cfg_of_step {s t : State} (stepped : step s = .next t) : t.cfg = s.cfg := by
  by_contra changed
  obtain ⟨op, i, r, -, -, he, same⟩ := exec_of_step_changed stepped (fun same => changed same.cfg)
  obtain ⟨-, -, -, -, -, -, keepsCfg⟩ := exec_writers i _ r he
  exact changed (same.cfg.trans keepsCfg)

/-- Settles O49: RESET and a write of KEY name the parameters they keep, LOAD writes memory and its window, and STEP is
a Cycle. -/
theorem parametersNeverChange : Obligations.ParametersNeverChange := by
  intro m s t moved
  cases m with
  | reset => cases moved; rfl
  | load image => rw [load_eq moved]
  | writeKey levels => cases moved; rfl
  | step rnd => exact cfg_of_step (s := { s with rndIn := [rnd] }) moved

end Sys2Proof.Machine
end

section
/-! The input ports (60_exceptions.md R231, R233): Execute carries the ports along, and an instruction that does not
read a port answers the same whatever stands on it. -/
namespace Sys2Proof.Machine

/-- What the host supplies on the ports KEY and RND. -/
structure Ports where
  key : BitVec 16
  rndIn : List Byte
  rndCount : Nat

/-- The same block with other values on its ports. -/
def State.withPorts (s : State) (p : Ports) : State :=
  { s with key := p.key, rndIn := p.rndIn, rndCount := p.rndCount }

/-- The ports differ from those of s at most where the instruction does not look: SKP, SKNP and LD Vx, K sample KEY, and
RND takes the random byte. -/
def Ports.LookAlike (p : Ports) (s : State) (i : Instr) : Prop :=
  match i with
  | .skp _ | .sknp _ | .ldVxK _ => p.key = s.key
  | .rnd _ _ => p.rndIn = s.rndIn ∧ p.rndCount = s.rndCount
  | _ => True

theorem withPorts_skipIf (s : State) (p : Ports) (c : Bool) : (s.withPorts p).skipIf c = (s.skipIf c).withPorts p := by
  cases c <;> rfl

theorem withPorts_writeRF (s : State) (p : Ports) (x : Reg) (r : Byte) (f : Bool) :
    (s.withPorts p).writeRF x r f = (s.writeRF x r f).withPorts p := by
  unfold State.writeRF State.withPorts
  cases s.cfg.vfWriteOrder <;> rfl

theorem withPorts_i (s : State) (p : Ports) : (s.withPorts p).i = s.i := rfl

theorem withPorts_reg (s : State) (p : Ports) (x : Reg) : (s.withPorts p).reg x = s.reg x := rfl

theorem withPorts_blockOf (s : State) (p : Ports) (x : Reg) : blockOf (s.withPorts p) x = blockOf s x := rfl

theorem withPorts_writeByte (s : State) (p : Ports) (a : Nat) (b : Byte) :
    (s.withPorts p).writeByte a b = (s.writeByte a b).map (·.withPorts p) := by
  unfold State.writeByte
  split <;> rfl

theorem withPorts_storeBytes (s : State) (p : Ports) (a : Nat) (bs : List Byte) :
    (s.withPorts p).storeBytes a bs = (s.storeBytes a bs).map (·.withPorts p) := by
  induction bs generalizing s a with
  | nil => rfl
  | cons b bs ih =>
    rw [State.storeBytes, State.storeBytes, withPorts_writeByte]
    cases s.writeByte a b with
    | none => rfl
    | some t => exact ih t (a + 1)

theorem withPorts_loadBytes (s : State) (p : Ports) (a n : Nat) : (s.withPorts p).loadBytes a n = s.loadBytes a n :=
  loadBytes_congr (s := s) (t := s.withPorts p) rfl rfl a n

theorem withPorts_keyPressed {s : State} {p : Ports} (sameKey : p.key = s.key) :
    keyPressed (s.withPorts p) = keyPressed s := by
  funext k
  exact congrArg (·.getLsbD k) sameKey

theorem withPorts_rndByte {s : State} {p : Ports} (sameBytes : p.rndIn = s.rndIn)
    (sameCount : p.rndCount = s.rndCount) :
    (s.withPorts p).rndByte = s.rndByte := by
  simp only [State.rndByte, State.withPorts, sameBytes, sameCount]

/-- An outcome with other values on the ports of its next state. -/
def outcomeWithPorts (p : Ports) : Host.Outcome State Fault Refusal → Host.Outcome State Fault Refusal
  | .next t => .next (t.withPorts p)
  | .fault f => .fault f
  | .refused f => .refused f

/-- An instruction run with other ports that look alike to it has the same outcome, with those ports. -/
theorem exec_withPorts {i : Instr} {s : State} {p : Ports} (alike : p.LookAlike s i) :
    exec i (s.withPorts p) = outcomeWithPorts p (exec i s) := by
  cases i with
  | seImm | sneImm | seReg | sneReg => exact congrArg _ (withPorts_skipIf s p _)
  | addReg | sub | subn | shr | shl => exact congrArg _ (withPorts_writeRF s p _ _ _)
  | call nnn =>
    rcases Nat.lt_or_ge s.sp.val 16 with room | full
    · rw [exec_call_of_room nnn room, exec_call_of_room (s := s.withPorts p) nnn room]
      rfl
    · have full : s.sp.val = 16 := by omega
      rw [exec_call_of_full nnn full, exec_call_of_full (s := s.withPorts p) nnn full]
      rfl
  | ret =>
    rcases Fin.eq_zero_or_eq_succ s.sp with empty | ⟨k, pushed⟩
    · have empty : s.sp.val = 0 := congrArg Fin.val empty
      rw [exec_ret_of_empty empty, exec_ret_of_empty (s := s.withPorts p) empty]
      rfl
    · have pushed : s.sp.val = k.val + 1 := congrArg Fin.val pushed
      rw [exec_ret_of_pushed pushed, exec_ret_of_pushed (s := s.withPorts p) pushed]
      rfl
  | rnd x nn =>
    rw [exec, exec, execRnd, execRnd, withPorts_rndByte alike.1 alike.2]
    rfl
  | drw x y n =>
    rw [exec, exec, execDrw, execDrw, withPorts_i, withPorts_loadBytes]
    cases s.loadBytes s.i.toNat n.val <;> rfl
  | skp x =>
    rw [exec, exec, execSkp, execSkp, withPorts_reg, withPorts_keyPressed alike, withPorts_skipIf]
    split <;> rfl
  | sknp x =>
    rw [exec, exec, execSknp, execSknp, withPorts_reg, withPorts_keyPressed alike, withPorts_skipIf]
    split <;> rfl
  | ldVxK x =>
    rw [exec, exec, execLdVxK, execLdVxK, lowestKey, lowestKey, withPorts_keyPressed alike]
    cases (List.range 16).find? (keyPressed s) <;> rfl
  | ldB x =>
    rw [exec, exec, execLdB, execLdB, withPorts_i, withPorts_reg, withPorts_storeBytes]
    cases s.storeBytes s.i.toNat (bcdDigits (s.reg x)) <;> rfl
  | ldMemVx x =>
    rw [exec, exec, execLdMemVx, execLdMemVx, withPorts_i, withPorts_blockOf, withPorts_storeBytes]
    cases s.storeBytes s.i.toNat (blockOf s x) <;> rfl
  | ldVxMem x =>
    rw [exec, exec, execLdVxMem, execLdVxMem, withPorts_i, withPorts_loadBytes]
    cases s.loadBytes s.i.toNat (x.val + 1) <;> rfl
  | _ => rfl

/-- Execute leaves what stands on the ports. -/
theorem ports_of_exec {i : Instr} {s t : State} (he : exec i s = .next t) :
    t.key = s.key ∧ t.rndIn = s.rndIn ∧ t.rndCount = s.rndCount := by
  obtain ⟨t', he', ⟨c, n, rfl⟩ | keeps⟩ := exec_cases i s <;> cases he'.symm.trans he
  · exact ⟨rfl, rfl, rfl⟩
  · obtain ⟨-, -, -, -, -, -, -, -, keptKey, keptBytes, keptCount, -⟩ := keeps
    exact ⟨keptKey, keptBytes, keptCount⟩

/-- Settles O47: with the keys alone replaced, the ports look alike to all but the three instructions that sample
them. -/
theorem onlyKeyInstructionsReadTheKeypad : Obligations.OnlyKeyInstructionsReadTheKeypad := by
  intro i s t k other he
  have alike : Ports.LookAlike ⟨k, s.rndIn, s.rndCount⟩ s i := by
    cases i with
    | skp x => exact absurd rfl (other x).1
    | sknp x => exact absurd rfl (other x).2.1
    | ldVxK x => exact absurd rfl (other x).2.2
    | rnd x nn => exact ⟨rfl, rfl⟩
    | _ => trivial
  obtain ⟨-, keptBytes, keptCount⟩ := ports_of_exec he
  have ported : t.withPorts ⟨k, s.rndIn, s.rndCount⟩ = { t with key := k } := by rw [← keptBytes, ← keptCount]; rfl
  rw [← ported]
  exact (exec_withPorts alike).trans (congrArg _ he)

/-- Settles O48: with the random input alone replaced, the ports look alike to all but RND. -/
theorem onlyRndReadsTheRandomInput : Obligations.OnlyRndReadsTheRandomInput := by
  intro i s t bytes n other he
  have alike : Ports.LookAlike ⟨s.key, bytes, n⟩ s i := by
    cases i with
    | skp x | sknp x | ldVxK x => rfl
    | rnd x nn => exact absurd rfl (other x nn)
    | _ => trivial
  obtain ⟨keptKey, -, -⟩ := ports_of_exec he
  have ported : t.withPorts ⟨s.key, bytes, n⟩ = { t with rndIn := bytes, rndCount := n } := by rw [← keptKey]; rfl
  rw [← ported]
  exact (exec_withPorts alike).trans (congrArg _ he)

end Sys2Proof.Machine
end

section
/-! Two instructions in a row: RET after CALL (R122, R123) and the same DRW twice (44_framebuffer.md R180,
95_test_vectors.md E7). -/
namespace Sys2Proof.Machine

/-- Settles O20: RET pops the entry CALL pushed, which alone of the stack has changed. -/
theorem returnUndoesCall : Obligations.ReturnUndoesCall := by
  intro s t u nnn p notFull called returned
  have room : s.sp.val < 16 := by omega
  cases (exec_call_of_room nnn room).symm.trans called
  cases (exec_ret_of_pushed (k := ⟨s.sp.val, room⟩) rfl).symm.trans returned
  refine ⟨Vector.getElem_set_self room, rfl, fun k below => Vector.getElem_set_ne room k.isLt (by omega), ?_⟩
  exact frame_stack s _ _ _

/-! ### Drawing twice -/

@[simp] theorem flagByte_eq_one_iff (f : Bool) : flagByte f = 1 ↔ f = true := by
  cases f <;> decide

@[simp] theorem flagByte_eq_zero_iff (f : Bool) : flagByte f = 0 ↔ f = false := by
  cases f <;> decide

/-- Whether DRW Vx, Vy of these bytes, from s, draws a pixel at column cx, row cy. -/
def State.drawsPixel (s : State) (x y : Reg) (sprite : List Byte) (cx cy : Nat) : Bool :=
  rowsBit ((s.reg x).toNat % 64) ((s.reg y).toNat % 32) sprite cx cy

/-- DRW with its sprite in range inverts the pixels drawn, and VF is 1 or 0 as one of them was on or not. -/
theorem drawn_of_drw {s t : State} {x y : Reg} {n : Fin 16} {sprite : List Byte}
    (loaded : s.loadBytes s.i.toNat n.val = some sprite) (drawn : exec (.drw x y n) s = .next t) :
    (∀ cx cy, cx < 64 → cy < 32 → t.cell cx cy = (s.cell cx cy ^^ s.drawsPixel x y sprite cx cy)) ∧
    (∃ hit : Bool, t.reg VF = flagByte hit ∧
      (hit = true ↔ ∃ cx cy, cx < 64 ∧ cy < 32 ∧ s.drawsPixel x y sprite cx cy = true ∧ s.cell cx cy = true)) := by
  have len := loadBytes_length s loaded
  obtain ⟨cells, collision⟩ := drawRows_spec ((s.reg x).toNat % 64) ((s.reg y).toNat % 32) sprite
    (Nat.mod_lt _ (by decide)) (by omega) (s.fb, false)
  rw [or_iff_right Bool.false_ne_true] at collision
  cases (exec_drw_of_loaded x y loaded).symm.trans drawn
  exact ⟨cells, _, reg_setReg_self _ _ _, collision⟩

/-- DRW with X and Y other than VF leaves what a second DRW reads: I, memory, Vx and Vy. -/
theorem drw_keepsOperands {s t : State} {x y : Reg} {n : Fin 16} (hx : x ≠ VF) (hy : y ≠ VF)
    (drawn : exec (.drw x y n) s = .next t) :
    t.loadBytes t.i.toNat n.val = s.loadBytes s.i.toNat n.val ∧ t.drawsPixel x y = s.drawsPixel x y := by
  obtain ⟨-, keepsI, -, keepsMem, -, -, keptCfg⟩ := exec_writers _ s t drawn
  obtain ⟨-, keepsReg⟩ := exec_nextPc_reg drawn
  constructor
  · rw [keepsI nofun nofun nofun, loadBytes_congr (keepsMem nofun nofun) keptCfg]
  · unfold State.drawsPixel
    rw [keepsReg x hx, keepsReg y hy]

/-- No cell outside the grid is on (10_state.md R30). -/
theorem cell_of_outside (s : State) {cx cy : Nat} (outside : ¬(cx < 64 ∧ cy < 32)) : s.cell cx cy = false := by
  by_cases inColumns : cx < 64
  · exact cell_of_y_ge s.fb cx (by omega)
  · exact cell_of_x_ge s.fb cy (by omega)

/-- Settles O32: the two draws invert the same pixels; after a first one without collision those pixels are on, and they
are the cells it changed. -/
theorem drawingTwiceRestoresTheScreen : Obligations.DrawingTwiceRestoresTheScreen := by
  intro s t u x y n hx hy inRange first second
  obtain ⟨sprite, loaded, -⟩ := exists_loadBytes inRange
  obtain ⟨sameSprite, samePixels⟩ := drw_keepsOperands hx hy first
  obtain ⟨cells, hit, flag, collision⟩ := drawn_of_drw loaded first
  obtain ⟨cells', hit', flag', collision'⟩ := drawn_of_drw (sameSprite.trans loaded) second
  rw [samePixels] at cells' collision'
  refine ⟨fun cx cy => ?_, fun noCollision => ?_⟩
  · by_cases inside : cx < 64 ∧ cy < 32
    · rw [cells' cx cy inside.1 inside.2, cells cx cy inside.1 inside.2, Bool.xor_assoc, Bool.xor_self, Bool.xor_false]
    · rw [cell_of_outside u inside, cell_of_outside s inside]
  · rw [flag, flagByte_eq_zero_iff] at noCollision
    rw [flag', flagByte_eq_one_iff, collision']
    constructor
    · rintro ⟨cx, cy, hcx, hcy, pixel, -⟩
      exact ⟨cx, cy, by rw [cells cx cy hcx hcy, pixel]; simp⟩
    · rintro ⟨cx, cy, differs⟩
      have inside : cx < 64 ∧ cy < 32 := by
        by_contra outside
        exact differs (by rw [cell_of_outside t outside, cell_of_outside s outside])
      obtain ⟨hcx, hcy⟩ := inside
      have changes := cells cx cy hcx hcy
      have pixel : s.drawsPixel x y sprite cx cy = true := by
        by_contra blank
        exact differs (by rw [changes, eq_false_of_ne_true blank, Bool.xor_false])
      have wasOff : ¬s.cell cx cy = true := fun on =>
        Bool.noConfusion (noCollision.symm.trans (collision.mpr ⟨cx, cy, hcx, hcy, pixel, on⟩))
      exact ⟨cx, cy, hcx, hcy, pixel, by rw [changes, eq_false_of_ne_true wasOff, pixel]; rfl⟩

end Sys2Proof.Machine
end
